-- ==== Sys2Proof/Word.lean ====
section
/-! DEFINITION. The bit-vector types of SVBN-CORE: a limb, a control word, a wide register and the scalar register. -/

namespace Sys2Proof

/-- A limb, the source's storage unit (00_scope.md R3). -/
abbrev Byte := BitVec 8

/-- A command word or a control-space location (30_encoding.md R50, 20_memory.md R30). -/
abbrev Word := BitVec 32

/-- The contents of a wide register, `V[n]` of 00_scope.md section 5 (10_state.md R10). -/
abbrev Wide := BitVec 1024

/-- The contents of the scalar result register X (10_state.md R16). -/
abbrev Scalar := BitVec 16

end Sys2Proof
end

