-- ==== Sys2Proof/Syntax.lean ====
section
/-! DEFINITION. The commands of SVBN-CORE as syntax: one constructor for each row of spec/opcode_table.json. -/

namespace Sys2Proof

/-- The operating width `W` a command selects (30_encoding.md R56). -/
inductive Width where
  | w256 | w512 | w1024
deriving DecidableEq, Repr

/-- The signedness a command selects (30_encoding.md R57). -/
inductive Signedness where
  | unsigned | signed
deriving DecidableEq, Repr

/-- The number of a wide register, V0 to V7 (30_encoding.md R58). -/
abbrev RegNum := Fin 8

/-- The unsigned immediate, used as is (30_encoding.md R59). -/
abbrev Imm16 := BitVec 16

/-- The commands in the operand order of 30_encoding.md R60 (destinations first), then the three pseudo-commands of R66.
A pseudo-command is assembler text: its word is that of a core command, and the decoder answers the core command
(log entry 10). -/
inductive Instr where
  | nop
  | neg (w : Width) (sg : Signedness) (rd ra : RegNum)
  | add (w : Width) (sg : Signedness) (rd ra rb : RegNum)
  | sub (w : Width) (sg : Signedness) (rd ra rb : RegNum)
  | mull (w : Width) (sg : Signedness) (rd ra rb : RegNum)
  | mulf (w : Width) (sg : Signedness) (rd ra rb : RegNum)
  | divmod (w : Width) (sg : Signedness) (rd re ra rb : RegNum)
  | mod (w : Width) (sg : Signedness) (rd ra rb : RegNum)
  | shl (w : Width) (sg : Signedness) (rd ra : RegNum) (n : Imm16)
  | shr (w : Width) (sg : Signedness) (rd ra : RegNum) (n : Imm16)
  | cmp (w : Width) (sg : Signedness) (ra rb : RegNum)
  | hsb (w : Width) (sg : Signedness) (ra : RegNum)
  | bset (w : Width) (sg : Signedness) (rd : RegNum) (i : Imm16)
  | bclr (w : Width) (sg : Signedness) (rd : RegNum) (i : Imm16)
  | btst (w : Width) (sg : Signedness) (ra : RegNum) (i : Imm16)
  | div (w : Width) (sg : Signedness) (rd ra rb : RegNum)
  | mov (w : Width) (rd ra : RegNum)
  | zero (rd : RegNum)
deriving DecidableEq, Repr

end Sys2Proof
end

