-- ==== Sys2Proof/WellFormed.lean ====
section
/-! DEFINITION. Which terms of `Instr` are commands of the block. The types of the fields already bound register numbers
and immediates and leave no fourth width; one check remains. -/

namespace Sys2Proof

/-- Full multiply exists only at widths that have a double-width partner: "1024 has no defined double-width partner and
does not expose this operation" (42_multiply.md R91, 30_encoding.md R62 (e)). -/
def fullMultiplyWidthOk : Width → Bool
  | .w256 => true
  | .w512 => true
  | .w1024 => false

/-- A command the block has. -/
def Instr.wf : Instr → Bool
  | .mulf w _ _ _ _ => fullMultiplyWidthOk w
  | .nop => true
  | .neg _ _ _ _ => true
  | .add _ _ _ _ _ => true
  | .sub _ _ _ _ _ => true
  | .mull _ _ _ _ _ => true
  | .divmod _ _ _ _ _ _ => true
  | .mod _ _ _ _ _ => true
  | .shl _ _ _ _ _ => true
  | .shr _ _ _ _ _ => true
  | .cmp _ _ _ _ => true
  | .hsb _ _ _ => true
  | .bset _ _ _ _ => true
  | .bclr _ _ _ _ => true
  | .btst _ _ _ _ => true
  | .div _ _ _ _ _ => true
  | .mov _ _ _ => true
  | .zero _ => true

end Sys2Proof
end

