-- ==== Sys2Proof/Decode.lean ====
section
/-! DEFINITION. The decoder of 30_encoding.md R61, total on all 32-bit words and refusing by name, and after it the
encoder, from the same tables (R51, R52, R56, R57, R60). -/

namespace Sys2Proof

/-! ## The operations and their formats -/

/-- The operation a word's `op` field names (30_encoding.md R60). -/
inductive Operation where
  | nop | neg | add | sub | mull | mulf | divmod | mod | shl | shr | cmp | hsb | bset | bclr | btst
deriving DecidableEq, Repr

/-- The nine formats (30_encoding.md R52). -/
inductive Format where
  | z | r2 | r3 | r4 | ri | c2 | c1 | di | ci
deriving DecidableEq, Repr

/-- Why a word is illegal, by the letter of 30_encoding.md R62. All five raise the same fault, IllegalCommand. -/
inductive Illegal where
  /-- (a) `op` in 15 to 31. -/
  | reservedOperation
  /-- (b) `op = 0` with any other bit of the word set. -/
  | nopWithOtherBits
  /-- (c) `wsel = 0b11` with `op` in 1 to 14. -/
  | reservedWidth
  /-- (d) a must-be-zero bit of the command's format is 1. -/
  | mustBeZeroBitSet
  /-- (e) MULF at width 1024. -/
  | fullMultiplyAt1024
deriving DecidableEq, Repr

/-- 30_encoding.md R60, the column `op`. -/
def Operation.code : Operation → Nat
  | .nop => 0
  | .neg => 1
  | .add => 2
  | .sub => 3
  | .mull => 4
  | .mulf => 5
  | .divmod => 6
  | .mod => 7
  | .shl => 8
  | .shr => 9
  | .cmp => 10
  | .hsb => 11
  | .bset => 12
  | .bclr => 13
  | .btst => 14

/-- 30_encoding.md R60 read from the code; 15 to 31 are reserved. -/
def Operation.ofCode : Nat → Option Operation
  | 0 => some .nop
  | 1 => some .neg
  | 2 => some .add
  | 3 => some .sub
  | 4 => some .mull
  | 5 => some .mulf
  | 6 => some .divmod
  | 7 => some .mod
  | 8 => some .shl
  | 9 => some .shr
  | 10 => some .cmp
  | 11 => some .hsb
  | 12 => some .bset
  | 13 => some .bclr
  | 14 => some .btst
  | _ => none

/-- 30_encoding.md R60, the column `format`. -/
def Operation.format : Operation → Format
  | .nop => .z
  | .neg => .r2
  | .add => .r3
  | .sub => .r3
  | .mull => .r3
  | .mulf => .r3
  | .divmod => .r4
  | .mod => .r3
  | .shl => .ri
  | .shr => .ri
  | .cmp => .c2
  | .hsb => .c1
  | .bset => .di
  | .bclr => .di
  | .btst => .ci

/-- 30_encoding.md R52, the column `must be zero`, each range as (lowest bit, number of bits). -/
def Format.mustBeZero : Format → List (Nat × Nat)
  | .z => [(0, 27)]
  | .r2 => [(0, 18)]
  | .r3 => [(0, 15)]
  | .r4 => [(0, 12)]
  | .ri => [(16, 2)]
  | .c2 => [(21, 3), (0, 15)]
  | .c1 => [(21, 3), (0, 18)]
  | .di => [(18, 3), (16, 2)]
  | .ci => [(21, 3), (16, 2)]

/-! ## Fields -/

/-- The `len` bits of `w` from bit `lo` up, as a number. -/
def field (w : Word) (lo len : Nat) : Nat := (w.extractLsb' lo len).toNat

/-- A three-bit register field (30_encoding.md R58). -/
def regField (w : Word) (lo : Nat) : RegNum := (w.extractLsb' lo 3).toFin

/-- The immediate field (30_encoding.md R51). -/
def immField (w : Word) : Imm16 := w.extractLsb' 0 16

/-- 30_encoding.md R56: `0b11` is reserved. -/
def Width.ofSel : Nat → Option Width
  | 0 => some .w256
  | 1 => some .w512
  | 2 => some .w1024
  | _ => none

/-- 30_encoding.md R56. -/
def Width.sel : Width → Nat
  | .w256 => 0
  | .w512 => 1
  | .w1024 => 2

/-- 30_encoding.md R57. -/
def Signedness.ofSgn : Nat → Signedness
  | 0 => .unsigned
  | _ => .signed

/-- 30_encoding.md R57. -/
def Signedness.sgn : Signedness → Nat
  | .unsigned => 0
  | .signed => 1

/-- Every must-be-zero bit of the format is 0 (30_encoding.md R61 step 5). -/
def zeroBitsClear (f : Format) (w : Word) : Bool :=
  f.mustBeZero.all fun r => field w r.1 r.2 == 0

/-- The command whose operation, width and signedness are known, its operands read from their fields
(30_encoding.md R61 step 7, R52). -/
def withOperands (o : Operation) (wd : Width) (sg : Signedness) (w : Word) : Instr :=
  match o with
  | .nop => .nop
  | .neg => .neg wd sg (regField w 21) (regField w 18)
  | .add => .add wd sg (regField w 21) (regField w 18) (regField w 15)
  | .sub => .sub wd sg (regField w 21) (regField w 18) (regField w 15)
  | .mull => .mull wd sg (regField w 21) (regField w 18) (regField w 15)
  | .mulf => .mulf wd sg (regField w 21) (regField w 18) (regField w 15)
  | .divmod => .divmod wd sg (regField w 21) (regField w 12) (regField w 18) (regField w 15)
  | .mod => .mod wd sg (regField w 21) (regField w 18) (regField w 15)
  | .shl => .shl wd sg (regField w 21) (regField w 18) (immField w)
  | .shr => .shr wd sg (regField w 21) (regField w 18) (immField w)
  | .cmp => .cmp wd sg (regField w 18) (regField w 15)
  | .hsb => .hsb wd sg (regField w 18)
  | .bset => .bset wd sg (regField w 21) (immField w)
  | .bclr => .bclr wd sg (regField w 21) (immField w)
  | .btst => .btst wd sg (regField w 18) (immField w)

/-- Steps 2 to 7 of 30_encoding.md R61, in that order. Step 1, the discard while faulted, reads the state and stands in
`Machine.command`. -/
def decode (w : Word) : Except Illegal Instr :=
  match Operation.ofCode (field w 27 5) with
  | none => .error .reservedOperation
  | some .nop => if w = 0 then .ok .nop else .error .nopWithOtherBits
  | some o =>
    match Width.ofSel (field w 25 2) with
    | none => .error .reservedWidth
    | some wd =>
      if zeroBitsClear o.format w then
        if o = .mulf ∧ wd = .w1024 then .error .fullMultiplyAt1024
        else .ok (withOperands o wd (.ofSgn (field w 24 1)) w)
      else .error .mustBeZeroBitSet

/-! ## The encoder -/

/-- A word of the register formats: the fields of 30_encoding.md R51 at their places. -/
def regWord (o : Operation) (wd : Width) (sg : Signedness) (rd ra rb re : RegNum) : Word :=
  BitVec.ofNat 32
    (o.code * 2 ^ 27 + wd.sel * 2 ^ 25 + sg.sgn * 2 ^ 24 + rd.val * 2 ^ 21 + ra.val * 2 ^ 18 +
      rb.val * 2 ^ 15 + re.val * 2 ^ 12)

/-- A word of the immediate formats (30_encoding.md R51). -/
def immWord (o : Operation) (wd : Width) (sg : Signedness) (rd ra : RegNum) (imm : Imm16) : Word :=
  BitVec.ofNat 32
    (o.code * 2 ^ 27 + wd.sel * 2 ^ 25 + sg.sgn * 2 ^ 24 + rd.val * 2 ^ 21 + ra.val * 2 ^ 18 +
      imm.toNat)

/-- The command word of an instruction. A field a format does not use is 0 (30_encoding.md R52). A pseudo-command has the
word it is an alias of (R66). The term `mulf` at width 1024 has the word R62 (e) calls illegal. -/
def encode : Instr → Word
  | .nop => 0
  | .neg w sg rd ra => regWord .neg w sg rd ra 0 0
  | .add w sg rd ra rb => regWord .add w sg rd ra rb 0
  | .sub w sg rd ra rb => regWord .sub w sg rd ra rb 0
  | .mull w sg rd ra rb => regWord .mull w sg rd ra rb 0
  | .mulf w sg rd ra rb => regWord .mulf w sg rd ra rb 0
  | .divmod w sg rd re ra rb => regWord .divmod w sg rd ra rb re
  | .mod w sg rd ra rb => regWord .mod w sg rd ra rb 0
  | .shl w sg rd ra n => immWord .shl w sg rd ra n
  | .shr w sg rd ra n => immWord .shr w sg rd ra n
  | .cmp w sg ra rb => regWord .cmp w sg 0 ra rb 0
  | .hsb w sg ra => regWord .hsb w sg 0 ra 0 0
  | .bset w sg rd i => immWord .bset w sg rd 0 i
  | .bclr w sg rd i => immWord .bclr w sg rd 0 i
  | .btst w sg ra i => immWord .btst w sg 0 ra i
  | .div w sg rd ra rb => regWord .divmod w sg rd ra rb rd
  | .mov w rd ra => immWord .shl w .unsigned rd ra 0
  | .zero rd => regWord .sub .w256 .unsigned rd rd rd 0

/-- The core command a term stands for: itself, or a pseudo-command's expansion (30_encoding.md R66). -/
def Instr.expand : Instr → Instr
  | .div w sg rd ra rb => .divmod w sg rd rd ra rb
  | .mov w rd ra => .shl w .unsigned rd ra 0
  | .zero rd => .sub .w256 .unsigned rd rd rd
  | .nop => .nop
  | .neg w sg rd ra => .neg w sg rd ra
  | .add w sg rd ra rb => .add w sg rd ra rb
  | .sub w sg rd ra rb => .sub w sg rd ra rb
  | .mull w sg rd ra rb => .mull w sg rd ra rb
  | .mulf w sg rd ra rb => .mulf w sg rd ra rb
  | .divmod w sg rd re ra rb => .divmod w sg rd re ra rb
  | .mod w sg rd ra rb => .mod w sg rd ra rb
  | .shl w sg rd ra n => .shl w sg rd ra n
  | .shr w sg rd ra n => .shr w sg rd ra n
  | .cmp w sg ra rb => .cmp w sg ra rb
  | .hsb w sg ra => .hsb w sg ra
  | .bset w sg rd i => .bset w sg rd i
  | .bclr w sg rd i => .bclr w sg rd i
  | .btst w sg ra i => .btst w sg ra i

/-- The operation of the core command a term stands for (30_encoding.md R60, R66). -/
def Instr.operation : Instr → Operation
  | .nop => .nop
  | .neg _ _ _ _ => .neg
  | .add _ _ _ _ _ => .add
  | .sub _ _ _ _ _ => .sub
  | .mull _ _ _ _ _ => .mull
  | .mulf _ _ _ _ _ => .mulf
  | .divmod _ _ _ _ _ _ => .divmod
  | .mod _ _ _ _ _ => .mod
  | .shl _ _ _ _ _ => .shl
  | .shr _ _ _ _ _ => .shr
  | .cmp _ _ _ _ => .cmp
  | .hsb _ _ _ => .hsb
  | .bset _ _ _ _ => .bset
  | .bclr _ _ _ _ => .bclr
  | .btst _ _ _ _ => .btst
  | .div _ _ _ _ _ => .divmod
  | .mov _ _ _ => .shl
  | .zero _ => .sub

/-! ## Words of the opcode table -/

/-- The instruction read from a word of spec/opcode_table.json. Commands are not fetched from memory: a word is the data
of one 32-bit write, so there are no bytes to lay out (30_encoding.md R50, 20_memory.md R44). -/
def decodeTableWord (nbits w : Nat) : Option Instr :=
  match decode (BitVec.ofNat 32 (w % 2 ^ nbits)) with
  | .ok i => some i
  | .error _ => none

end Sys2Proof
end

