-- ==== Sys2Proof/Machine/Operands.lean ====
section
/-! DEFINITION. How a command reads its operands and encodes its results: widths, bytes, unsigned and signed values, `enc`
and the two divisions of 00_scope.md section 5. -/

namespace Sys2Proof

/-- `W` in bits: `256 << wsel` (30_encoding.md R56, R61 step 4). -/
def Width.bits : Width → Nat
  | .w256 => 256
  | .w512 => 512
  | .w1024 => 1024

/-- `N = W / 8` (00_scope.md R3). -/
def Width.bytes : Width → Nat
  | .w256 => 32
  | .w512 => 64
  | .w1024 => 128

namespace Machine

/-! ## Bytes and bits of a wide register -/

/-- `V[n].b[k] = V[n][8k+7:8k]` (00_scope.md section 5). -/
def byteOf (r : Wide) (k : Nat) : Byte := r.extractLsb' (8 * k) 8

/-- The register with byte `k` replaced and every other byte kept (20_memory.md R34). -/
def setByte (r : Wide) (k : Nat) (b : Byte) : Wide :=
  (r &&& ~~~(BitVec.setWidth 1024 (0xFF : Byte) <<< (8 * k))) ||| (BitVec.setWidth 1024 b <<< (8 * k))

/-- Bit `i mod 8` of byte `i div 8` (46_bit_utilities.md R134). -/
def bitOf (r : Wide) (i : Nat) : Bool := (byteOf r (i / 8)).getLsbD (i % 8)

/-- 46_bit_utilities.md R131: `V[rd].b[k] OR (1 << j)`, no other byte touched. -/
def withBitSet (r : Wide) (i : Nat) : Wide :=
  setByte r (i / 8) (byteOf r (i / 8) ||| ((1 : Byte) <<< (i % 8)))

/-- 46_bit_utilities.md R132: `V[rd].b[k] AND (0xFF XOR (1 << j))`, no other byte touched. -/
def withBitClear (r : Wide) (i : Nat) : Wide :=
  setByte r (i / 8) (byteOf r (i / 8) &&& ((0xFF : Byte) ^^^ ((1 : Byte) <<< (i % 8))))

/-! ## Values -/

/-- `U_W = V[n] mod 2^W` (00_scope.md section 5, 10_state.md R11). -/
def unsignedOf (w : Width) (r : Wide) : Nat := r.toNat % 2 ^ w.bits

/-- `V[n][W-1]`, the sign bit at the operating width (00_scope.md R3). -/
def signBit (w : Width) (r : Wide) : Bool := r.getLsbD (w.bits - 1)

/-- `S_W = U_W - 2^W * V[n][W-1]` (00_scope.md section 5, 10_state.md R11). -/
def signedOf (w : Width) (r : Wide) : Int :=
  (unsignedOf w r : Int) - 2 ^ w.bits * ((signBit w r).toNat : Int)

/-- `val_W(sgn, n)` (00_scope.md section 5). -/
def valueOf (sg : Signedness) (w : Width) (r : Wide) : Int :=
  match sg with
  | .unsigned => unsignedOf w r
  | .signed => signedOf w r

/-- `enc_M(z) = z mod 2^M`, in `[0, 2^M)` for negative `z` too (00_scope.md section 5). -/
def enc (m : Nat) (z : Int) : Nat := (z % 2 ^ m).toNat

/-- `zext_1024(enc_M(z))`, the register image of a result (10_state.md R12). -/
def wideOf (m : Nat) (z : Int) : Wide := BitVec.ofNat 1024 (enc m z)

/-- `trunc_div`, rounded toward zero (00_scope.md section 5). -/
def truncDiv (a b : Int) : Int := a.tdiv b

/-- `trunc_rem(x, y) = x - y*trunc_div(x, y)` (00_scope.md section 5). -/
def truncRem (a b : Int) : Int := a - b * truncDiv a b

/-- `floor_div`, rounded toward minus infinity (00_scope.md section 5). -/
def floorDiv (a b : Int) : Int := a.fdiv b

/-! ## Byte images -/

/-- Bytes 0 to N-1 of a register, index 0 least significant: the image of its value at width `W`
(40_storage_construction.md R70). -/
def imageOf (w : Width) (r : Wide) : List Byte := (List.range w.bytes).map (byteOf r)

/-- The unsigned value of a little-endian byte list: the sum of `b[k] * 256^k` (20_memory.md R31). -/
def leValue : List Byte → Nat
  | [] => 0
  | b :: bs => b.toNat + 256 * leValue bs

/-- The `n` low bytes of a number, least significant first (20_memory.md R31). -/
def leBytes : Nat → Nat → List Byte
  | 0, _ => []
  | n + 1, v => BitVec.ofNat 8 v :: leBytes n (v / 256)

end Machine
end Sys2Proof
end

