-- ==== Sys2Proof/Machine/State.lean ====
section
/-! DEFINITION. The state of SVBN-CORE as plain data, the events that drive it, the reasons a step can stop, and the state
after reset. -/

namespace Sys2Proof.Machine

/-- What the outside does to the block: a host read or write of `size` bytes at byte offset `off` from `BASE`
(00_scope.md section 5, "Memory primitives"), or the platform's reset event (70_reset_and_hazards.md R180). -/
inductive Event where
  | hostRead (off size : Nat)
  | hostWrite (off size value : Nat)
  | reset
deriving DecidableEq, Repr

/-- The value a host read returns: a byte of the operand space or a word of the control space (20_memory.md R33, R36). -/
inductive Reply where
  | byte (b : Byte)
  | word (w : Word)
deriving DecidableEq, Repr

/-- The causes of 60_exceptions.md R160. Recording one is a next state of the machine, never a stop. -/
inductive FaultCause where
  | divisionByZero | indexOutOfRange | illegalCommand
deriving DecidableEq, Repr

/-- The state. `v`, `x`, `fault` and `finfo` are the block's, and all of it (10_state.md R22); `fault` is `FAULT[2:0]`,
the rest of FAULT reading as zero (R17, log entry 11). `pending` and `replies` are the model's: the host's script, consumed
from its head (R14, log entry 1), and the values its reads have returned, oldest first (log entry 3). -/
structure State where
  v : Vector Wide 8
  x : Scalar
  fault : BitVec 3
  finfo : Word
  pending : List Event
  replies : List Reply
deriving DecidableEq, Repr

/-- Reasons the machine stops with a fault. There is none: the block's own faults are recorded in FAULT and the machine
goes on, and "nothing hangs" (93_implementation_defined.md, 70_reset_and_hazards.md R186). -/
inductive Fault where
deriving DecidableEq, Repr

/-- Reasons a step is refused. -/
inductive Refusal where
  /-- A command with no meaning yet. Raised by no arm of `exec`: every command has its meaning. Safe. -/
  | notModelled (mnemonic : String)
  /-- Raised by a host access that 20_memory.md R36 does not admit: "A model gives such an access no step (it refuses
  it)". Safe. -/
  | accessNotAdmitted (off size : Nat)
  /-- Raised by a host write whose value does not fit its size, which is no transaction of the spec (R34: "v in 0..255").
  Safe (log entry 5). -/
  | valueTooWide (size value : Nat)
deriving DecidableEq, Repr

/-- 10_state.md R23: every bit of the block's state is zero. Nothing is pending and nothing has been read. -/
def State.reset : State where
  v := Vector.replicate 8 0
  x := 0
  fault := 0
  finfo := 0
  pending := []
  replies := []

/-- What a step answers. -/
abbrev Outcome := Host.Outcome State Fault Refusal

end Sys2Proof.Machine
end

