-- ==== Sys2Proof/Machine/Ops.lean ====
section
/-! DEFINITION. The named operations over the state: registers, `WriteV`, raising a fault, the acknowledge, the reset event,
and the discard of commands while faulted. -/

namespace Sys2Proof.Machine

/-! ## Registers -/

/-- `V[n]` (10_state.md R10). -/
def State.reg (s : State) (n : RegNum) : Wide := s.v[n]

/-- `V[n] <- r`, the whole 1024-bit register. -/
def State.setReg (s : State) (n : RegNum) (r : Wide) : State := { s with v := s.v.set n r }

/-- `X <- r`, all 16 bits (10_state.md R16). -/
def State.setX (s : State) (r : Scalar) : State := { s with x := r }

/-- `WriteV(n, M, z)`: the low M bits receive `enc_M(z)` and every higher bit is zero (10_state.md R12). -/
def State.writeV (s : State) (n : RegNum) (m : Nat) (z : Int) : State := s.setReg n (wideOf m z)

/-- `U_W(n)` (00_scope.md section 5). -/
def State.unsigned (s : State) (w : Width) (n : RegNum) : Nat := unsignedOf w (s.reg n)

/-- `val_W(sgn, n)` (00_scope.md section 5). -/
def State.value (s : State) (sg : Signedness) (w : Width) (n : RegNum) : Int := valueOf sg w (s.reg n)

/-! ## Faults -/

/-- The cause codes (60_exceptions.md R160). -/
def FaultCause.code : FaultCause → BitVec 3
  | .divisionByZero => 1
  | .indexOutOfRange => 2
  | .illegalCommand => 3

/-- The block is faulted exactly when `FAULT[2:0] != 0` (10_state.md R17). -/
def State.faulted (s : State) : Bool := s.fault != 0

/-- Taking a fault: FAULT <- code, FINFO <- the command word, and nothing else; there is no vector, no saved context and
no mode change (60_exceptions.md R166). -/
def raise (c : FaultCause) (cmd : Word) (s : State) : State := { s with fault := c.code, finfo := cmd }

/-- Leaving a fault: the acknowledge clears FAULT and FINFO when the cause is DivisionByZero and does nothing otherwise
(60_exceptions.md R168, R169, 20_memory.md R39). -/
def acknowledge (s : State) : State :=
  if s.fault = FaultCause.divisionByZero.code then { s with fault := 0, finfo := 0 } else s

/-- The effect of a command delivered to the block: discarded while faulted (30_encoding.md R61 step 1,
60_exceptions.md R167), otherwise its own effect. Every command has exactly one successor state
(70_reset_and_hazards.md R186). -/
def command (s : State) (effect : State → State) : Outcome :=
  .next (if s.faulted then s else effect s)

/-! ## Events that are no command -/

/-- The reset event sets the block's state to its reset values (70_reset_and_hazards.md R180). The host's script and what
it has read are the host's and stay. -/
def resetBlock (s : State) : State :=
  { State.reset with pending := s.pending, replies := s.replies }

/-- A host read returns a value and changes nothing in the block (20_memory.md R33, R41). -/
def State.reply (s : State) (r : Reply) : State := { s with replies := s.replies ++ [r] }

end Sys2Proof.Machine
end

