-- ==== Sys2Proof/Machine/AddSub.lean ====
section
/-! DEFINITION. NEG, ADD, SUB and the pseudo-command ZERO (41_add_sub_neg.md). The signedness is accepted and ignored
(30_encoding.md R67). -/

namespace Sys2Proof.Machine

/-- The two-operand commands whose result is one W-bit value of the unsigned operands. -/
def binary (w : Width) (rd ra rb : RegNum) (f : Int → Int → Int) (s : State) : State :=
  s.writeV rd w.bits (f (s.unsigned w ra) (s.unsigned w rb))

/-- 41_add_sub_neg.md R80. -/
def execNeg (w : Width) (_sg : Signedness) (rd ra : RegNum) (s : State) : Outcome :=
  command s fun s => s.writeV rd w.bits (-(s.unsigned w ra : Int))

/-- 41_add_sub_neg.md R81. -/
def execAdd (w : Width) (_sg : Signedness) (rd ra rb : RegNum) (s : State) : Outcome :=
  command s (binary w rd ra rb fun a b => a + b)

/-- 41_add_sub_neg.md R82: minuend `ra`, subtrahend `rb`. -/
def execSub (w : Width) (_sg : Signedness) (rd ra rb : RegNum) (s : State) : Outcome :=
  command s (binary w rd ra rb fun a b => a - b)

/-- The pseudo-command ZERO: SUB.U256 of a register from itself (30_encoding.md R66). -/
def execZero (rd : RegNum) (s : State) : Outcome :=
  command s (binary .w256 rd rd rd fun a b => a - b)

end Sys2Proof.Machine
end

