-- ==== Sys2Proof/Machine/Flags.lean ====
section
/-! DEFINITION. The block has no flags (10_state.md R15). The three results that are not wide values, an ordering, a bit and
a bit index, are computed here and encoded for the scalar register X (10_state.md R16). -/

namespace Sys2Proof.Machine

/-- Which of `a < b`, `a = b`, `a > b` holds (45_compare.md R120). -/
def orderOf (a b : Int) : Ordering :=
  if a < b then .lt else if a = b then .eq else .gt

/-- -1, 0 or +1 in 16-bit two's-complement (45_compare.md R120). -/
def orderCode : Ordering → Scalar
  | .lt => 0xFFFF
  | .eq => 0x0000
  | .gt => 0x0001

/-- The six comparison operators a host reads from X after CMP (45_compare.md R124). -/
inductive Relation where
  | eq | ne | lt | gt | le | ge
deriving DecidableEq, Repr

/-- What the operator says of two values. -/
def Relation.holds (r : Relation) (a b : Int) : Bool :=
  match r with
  | .eq => decide (a = b)
  | .ne => decide (a ≠ b)
  | .lt => decide (a < b)
  | .gt => decide (a > b)
  | .le => decide (a ≤ b)
  | .ge => decide (a ≥ b)

/-- How the host reads the operator from X (45_compare.md R124). -/
def Relation.readX (r : Relation) (x : Scalar) : Bool :=
  match r with
  | .eq => x == 0x0000
  | .ne => x != 0x0000
  | .lt => x == 0xFFFF
  | .gt => x == 0x0001
  | .le => x != 0x0001
  | .ge => x != 0xFFFF

/-- `floor(log2(U_W))`, the largest set bit index of a nonzero value; an all-zero value has none
(46_bit_utilities.md R130). -/
def highestSetBit (w : Width) (r : Wide) : Option Nat :=
  if unsignedOf w r = 0 then none else some (unsignedOf w r).log2

/-- A bit index, or the sentinel -1 for none (46_bit_utilities.md R130, 92_eei_decisions.md D19). -/
def indexCode : Option Nat → Scalar
  | none => 0xFFFF
  | some i => BitVec.ofNat 16 i

/-- `zext_16` of one bit (46_bit_utilities.md R133). -/
def bitCode (b : Bool) : Scalar := if b then 0x0001 else 0x0000

end Sys2Proof.Machine
end

