-- ==== Sys2Proof/Machine/BitUtil.lean ====
section
/-! DEFINITION. HSB, BSET, BCLR and BTST (46_bit_utilities.md). All four look at raw bits; the signedness is accepted and
ignored (30_encoding.md R67), though it is part of the command word a fault records. -/

namespace Sys2Proof.Machine

/-- A command on one bit: IndexOutOfRange when the index is not below the W of the command, otherwise its effect
(46_bit_utilities.md R134). -/
def indexing (cmd : Word) (w : Width) (i : Imm16) (k : Nat → State → State) (s : State) : State :=
  if i.toNat < w.bits then k i.toNat s else raise .indexOutOfRange cmd s

/-- 46_bit_utilities.md R130. -/
def execHsb (w : Width) (_sg : Signedness) (ra : RegNum) (s : State) : Outcome :=
  command s fun s => s.setX (indexCode (highestSetBit w (s.reg ra)))

/-- 46_bit_utilities.md R131: in place, no other bit of the register changes. -/
def execBset (w : Width) (sg : Signedness) (rd : RegNum) (i : Imm16) (s : State) : Outcome :=
  command s (indexing (encode (.bset w sg rd i)) w i fun k s => s.setReg rd (withBitSet (s.reg rd) k))

/-- 46_bit_utilities.md R132: in place, no other bit of the register changes. -/
def execBclr (w : Width) (sg : Signedness) (rd : RegNum) (i : Imm16) (s : State) : Outcome :=
  command s (indexing (encode (.bclr w sg rd i)) w i fun k s => s.setReg rd (withBitClear (s.reg rd) k))

/-- 46_bit_utilities.md R133. -/
def execBtst (w : Width) (sg : Signedness) (ra : RegNum) (i : Imm16) (s : State) : Outcome :=
  command s (indexing (encode (.btst w sg ra i)) w i fun k s => s.setX (bitCode (bitOf (s.reg ra) k)))

end Sys2Proof.Machine
end

