-- ==== Sys2Proof/Machine/Compare.lean ====
section
/-! DEFINITION. CMP (45_compare.md). -/

namespace Sys2Proof.Machine

/-- 45_compare.md R120: the order of the unsigned or of the signed values, to X; no wide register is written. -/
def execCmp (w : Width) (sg : Signedness) (ra rb : RegNum) (s : State) : Outcome :=
  command s fun s => s.setX (orderCode (orderOf (s.value sg w ra) (s.value sg w rb)))

end Sys2Proof.Machine
end

