-- ==== Sys2Proof/Machine/Divide.lean ====
section
/-! DEFINITION. DIVMOD, MOD and the pseudo-command DIV (43_divide.md). -/

namespace Sys2Proof.Machine

/-- A command that divides: DivisionByZero when the divisor's low W bits are all zero, whatever the dividend
(43_divide.md R103); otherwise `k` is given the dividend and the divisor. -/
def dividing (cmd : Word) (w : Width) (sg : Signedness) (ra rb : RegNum) (k : Int → Int → State → State)
    (s : State) : State :=
  if s.unsigned w rb = 0 then raise .divisionByZero cmd s
  else k (s.value sg w ra) (s.value sg w rb) s

/-- The quotient to `rd`, then the remainder to `re` unless `re = rd` (43_divide.md R100). -/
def writeQuotientRemainder (w : Width) (rd re : RegNum) (a b : Int) (s : State) : State :=
  if re = rd then s.writeV rd w.bits (truncDiv a b)
  else (s.writeV rd w.bits (truncDiv a b)).writeV re w.bits (truncRem a b)

/-- 43_divide.md R100. -/
def execDivmod (w : Width) (sg : Signedness) (rd re ra rb : RegNum) (s : State) : Outcome :=
  command s (dividing (encode (.divmod w sg rd re ra rb)) w sg ra rb (writeQuotientRemainder w rd re))

/-- 43_divide.md R101: the remainder of R100 alone. -/
def execMod (w : Width) (sg : Signedness) (rd ra rb : RegNum) (s : State) : Outcome :=
  command s (dividing (encode (.mod w sg rd ra rb)) w sg ra rb fun a b s => s.writeV rd w.bits (truncRem a b))

/-- The pseudo-command DIV: DIVMOD with `re = rd`, the quotient alone (43_divide.md R107). -/
def execDiv (w : Width) (sg : Signedness) (rd ra rb : RegNum) (s : State) : Outcome :=
  command s (dividing (encode (.div w sg rd ra rb)) w sg ra rb (writeQuotientRemainder w rd rd))

end Sys2Proof.Machine
end

