-- ==== Sys2Proof/Machine/Multiply.lean ====
section
/-! DEFINITION. MULL and MULF (42_multiply.md). -/

namespace Sys2Proof.Machine

/-- 42_multiply.md R90: the product truncated to W bits. -/
def execMull (w : Width) (_sg : Signedness) (rd ra rb : RegNum) (s : State) : Outcome :=
  command s (binary w rd ra rb fun a b => a * b)

/-- 42_multiply.md R91: the exact product, 2W bits wide, of the signed or unsigned values. At width 1024 the term is no
command of the block and raises IllegalCommand. -/
def execMulf (w : Width) (sg : Signedness) (rd ra rb : RegNum) (s : State) : Outcome :=
  command s fun s =>
    if fullMultiplyWidthOk w then s.writeV rd (2 * w.bits) (s.value sg w ra * s.value sg w rb)
    else raise .illegalCommand (encode (.mulf w sg rd ra rb)) s

end Sys2Proof.Machine
end

