-- ==== Sys2Proof/Machine/Shift.lean ====
section
/-! DEFINITION. SHL, SHR and the pseudo-command MOV (44_shift.md). Every amount 0 to 65535 has its arithmetic meaning and
none is reduced modulo W (R112). -/

namespace Sys2Proof.Machine

/-- `WriteV(rd, W, U_W(ra) * 2^n)` (44_shift.md R110). -/
def shiftLeft (w : Width) (rd ra : RegNum) (n : Nat) (s : State) : State :=
  s.writeV rd w.bits ((s.unsigned w ra : Int) * 2 ^ n)

/-- 44_shift.md R110; the signedness is accepted and ignored. -/
def execShl (w : Width) (_sg : Signedness) (rd ra : RegNum) (n : Imm16) (s : State) : Outcome :=
  command s (shiftLeft w rd ra n.toNat)

/-- 44_shift.md R111: floor of the unsigned value (logical) or of the signed value (arithmetic) over `2^n`. -/
def execShr (w : Width) (sg : Signedness) (rd ra : RegNum) (n : Imm16) (s : State) : Outcome :=
  command s fun s => s.writeV rd w.bits (floorDiv (s.value sg w ra) (2 ^ n.toNat))

/-- The pseudo-command MOV: SHL.U by zero (30_encoding.md R66). -/
def execMov (w : Width) (rd ra : RegNum) (s : State) : Outcome :=
  command s (shiftLeft w rd ra 0)

end Sys2Proof.Machine
end

