-- ==== Sys2Proof/Machine/System.lean ====
section
/-! DEFINITION. NOP (48_system.md). -/

namespace Sys2Proof.Machine

/-- 48_system.md R150: reads nothing and writes nothing. -/
def execNop (s : State) : Outcome := command s id

end Sys2Proof.Machine
end

