-- ==== Sys2Proof/Machine/Dispatch.lean ====
section
/-! DEFINITION. The meaning of each command, one arm per constructor: the effect of delivering it to the block in any
state, the discard while faulted included (30_encoding.md R61, 60_exceptions.md R167). -/

namespace Sys2Proof.Machine

def exec (i : Instr) (s : State) : Host.Outcome State Fault Refusal :=
  match i with
  | .nop => Sys2Proof.Machine.execNop s
  | .neg w sg rd ra => Sys2Proof.Machine.execNeg w sg rd ra s
  | .add w sg rd ra rb => Sys2Proof.Machine.execAdd w sg rd ra rb s
  | .sub w sg rd ra rb => Sys2Proof.Machine.execSub w sg rd ra rb s
  | .mull w sg rd ra rb => Sys2Proof.Machine.execMull w sg rd ra rb s
  | .mulf w sg rd ra rb => Sys2Proof.Machine.execMulf w sg rd ra rb s
  | .divmod w sg rd re ra rb => Sys2Proof.Machine.execDivmod w sg rd re ra rb s
  | .mod w sg rd ra rb => Sys2Proof.Machine.execMod w sg rd ra rb s
  | .shl w sg rd ra n => Sys2Proof.Machine.execShl w sg rd ra n s
  | .shr w sg rd ra n => Sys2Proof.Machine.execShr w sg rd ra n s
  | .cmp w sg ra rb => Sys2Proof.Machine.execCmp w sg ra rb s
  | .hsb w sg ra => Sys2Proof.Machine.execHsb w sg ra s
  | .bset w sg rd k => Sys2Proof.Machine.execBset w sg rd k s
  | .bclr w sg rd k => Sys2Proof.Machine.execBclr w sg rd k s
  | .btst w sg ra k => Sys2Proof.Machine.execBtst w sg ra k s
  | .div w sg rd ra rb => Sys2Proof.Machine.execDiv w sg rd ra rb s
  | .mov w rd ra => Sys2Proof.Machine.execMov w rd ra s
  | .zero rd => Sys2Proof.Machine.execZero rd s

end Sys2Proof.Machine
end

