-- ==== Sys2Proof/Machine/Window.lean ====
section
/-! DEFINITION. The host window of 20_memory.md and the events that reach the block through it. -/

namespace Sys2Proof.Machine

/-- What stands in the window (20_memory.md R30). -/
inductive Location where
  | operand (n : RegNum) (k : Nat)
  | cmd | x | fault | finfo
deriving DecidableEq, Repr

/-- The location an access names, when it is admitted: one byte at `0x80*n + k` below `0x400`, or four bytes at one of the
four control offsets (20_memory.md R30, R32, R36). -/
def locate (off size : Nat) : Option Location :=
  if size = 1 then
    if off < 0x400 then some (.operand (Fin.ofNat 8 (off / 0x80)) (off % 0x80)) else none
  else if size = 4 then
    if off = 0x400 then some .cmd
    else if off = 0x404 then some .x
    else if off = 0x408 then some .fault
    else if off = 0x40C then some .finfo
    else none
  else none

/-- The value a read of a location returns: CMD reads as 0 (20_memory.md R37), X and FAULT are zero-extended
(R38, R39). -/
def readLocation (l : Location) (s : State) : Reply :=
  match l with
  | .operand n k => .byte (byteOf (s.reg n) k)
  | .cmd => .word 0
  | .x => .word (s.x.setWidth 32)
  | .fault => .word (s.fault.setWidth 32)
  | .finfo => .word s.finfo

/-- A command word arrives at the CMD port: it is decoded and executed, or raises IllegalCommand; either way it is
discarded while the block is faulted (20_memory.md R37, 30_encoding.md R61). -/
def issue (cmd : Word) (s : State) : Outcome :=
  match decode cmd with
  | .ok i => exec i s
  | .error _ => command s (raise .illegalCommand cmd)

/-- The effect of a write of a value to a location (20_memory.md R34, R37 to R40). -/
def writeLocation (l : Location) (v : Nat) (s : State) : Outcome :=
  match l with
  | .operand n k => .next (s.setReg n (setByte (s.reg n) k (BitVec.ofNat 8 v)))
  | .cmd => issue (BitVec.ofNat 32 v) s
  | .x => .next s
  | .fault => .next (acknowledge s)
  | .finfo => .next s

/-- `HostRead(off, n)` (20_memory.md R33, R36 to R40). -/
def hostRead (off size : Nat) (s : State) : Outcome :=
  match locate off size with
  | none => .refused (.accessNotAdmitted off size)
  | some l => .next (s.reply (readLocation l s))

/-- `HostWrite(off, n, v)` (20_memory.md R34, R36 to R40). -/
def hostWrite (off size value : Nat) (s : State) : Outcome :=
  match locate off size with
  | none => .refused (.accessNotAdmitted off size)
  | some l =>
    if value < 256 ^ size then writeLocation l value s else .refused (.valueTooWide size value)

/-- One event, delivered whole (20_memory.md R41, R42, 70_reset_and_hazards.md R180). -/
def deliver (e : Event) (s : State) : Outcome :=
  match e with
  | .hostRead off size => hostRead off size s
  | .hostWrite off size value => hostWrite off size value s
  | .reset => .next (resetBlock s)

/-- The write that issues a command word (20_memory.md R37). -/
def cmdWrite (w : Word) : Event := .hostWrite 0x400 4 w.toNat

/-- The operand byte at an offset of the window (20_memory.md R32). -/
def operandByte (s : State) (off : Nat) : Byte := byteOf (s.reg (Fin.ofNat 8 (off / 0x80))) (off % 0x80)

end Sys2Proof.Machine
end

