-- ==== Sys2Proof/Machine/Step.lean ====
section
/-! DEFINITION. One step: the head of the host's script is delivered. -/

namespace Sys2Proof.Machine

/-- The next event is taken from the script and delivered (10_state.md R14, 20_memory.md R42). With nothing pending the
block is idle with its state held (60_exceptions.md R175, log entry 2). -/
def step (s : State) : Host.Outcome State Fault Refusal :=
  match s.pending with
  | [] => .next s
  | e :: rest => deliver e { s with pending := rest }

/-- The state with a CMD write of the word at the head of the host's script, so that the next step issues it. A command is
not fetched: its word is the data of the write (20_memory.md R37, R44, log entry 1). -/
def State.withFetchWord (s : State) (nbits w : Nat) : State :=
  { s with pending := cmdWrite (BitVec.ofNat 32 (w % 2 ^ nbits)) :: s.pending }

end Sys2Proof.Machine
end

