-- ==== Sys2Proof/Config.lean ====
section
/-! DEFINITION. What the spec leaves OPEN as a parameter. Only the host-side functions take one: no hardware rule depends
on a parameter (92_eei_decisions.md D2, D22, D26, D27), and the machine has no free value (93_implementation_defined.md). -/

namespace Sys2Proof.Config

/-- The parameters of the host-side functions. `nativeBytes` is `NATIVE_BITS / 8`, the length in bytes of the host's
native integer (40_storage_construction.md R72); `hexUpper` is `HEX_UPPER` (47_text_formatting.md R147). -/
structure HostParams where
  nativeBytes : Nat
  hexUpper : Bool
deriving DecidableEq, Repr

/-- The spec's defaults: 64-bit native integers (the spec marks the 64 as general knowledge) and lower case.
PRESUMED, log entry 8. Unsafe for a claim that needs this value; the functions take any parameters. -/
def defaultHost : HostParams := ⟨8, false⟩

end Sys2Proof.Config
end

