-- ==== Sys2Proof/Machine/HostValues.lean ====
section
/-! DEFINITION. The host-side construction functions of 40_storage_construction.md, on byte images (lists of bytes, index 0
least significant), and the host transactions that move an image into and out of a wide register. -/

namespace Sys2Proof.Machine

open Config (HostParams)

/-- Failures of the host-side functions; none reaches the block or its FAULT register (60_exceptions.md R164). -/
inductive HostError where
  /-- `fromNative` with a native integer wider than the target (40_storage_construction.md R79). -/
  | nativeTooWide
  /-- A character outside `[0-9a-fA-F]` (47_text_formatting.md R144). -/
  | invalidHexDigit
deriving DecidableEq, Repr

/-- `zero()`: N zero bytes (40_storage_construction.md R71). -/
def zeroImage (w : Width) : List Byte := List.replicate w.bytes 0

/-- `fromNative(intValue)`: the native bytes, then `0xFF` for a negative value of a signed type and `0x00` otherwise
(40_storage_construction.md R72, R79). -/
def fromNative (p : HostParams) (sg : Signedness) (w : Width) (z : Int) : Except HostError (List Byte) :=
  if w.bytes < p.nativeBytes then .error .nativeTooWide
  else
    let fill : Byte := if sg = .signed ∧ z < 0 then 0xFF else 0x00
    .ok (leBytes p.nativeBytes (enc (8 * p.nativeBytes) z) ++ List.replicate (w.bytes - p.nativeBytes) fill)

/-- `fromBytes(sourceBytes)`: the low bytes, truncated or zero-padded to the target's length
(40_storage_construction.md R73). -/
def fromBytes (w : Width) (src : List Byte) : List Byte := (List.range w.bytes).map fun k => src.getD k 0

/-- `toNativeInt()`: the low native-sized bytes read as a signed native integer (40_storage_construction.md R75). -/
def toNativeInt (p : HostParams) (img : List Byte) : Int :=
  let u := leValue (img.take p.nativeBytes)
  if u < 2 ^ (8 * p.nativeBytes - 1) then u else (u : Int) - 2 ^ (8 * p.nativeBytes)

/-- The writes that load an image into register `n`, one byte each (40_storage_construction.md, opening; R77). -/
def loadImage (n : RegNum) (img : List Byte) : List Event :=
  img.mapIdx fun k b => .hostWrite (0x80 * n.val + k) 1 b.toNat

/-- The reads that fetch the low `count` bytes of register `n` (40_storage_construction.md R76). -/
def readImage (n : RegNum) (count : Nat) : List Event :=
  (List.range count).map fun k => .hostRead (0x80 * n.val + k) 1

end Sys2Proof.Machine
end

