-- ==== Sys2Proof/Machine/HostText.lean ====
section
/-! DEFINITION. The hexadecimal text form of 47_text_formatting.md: `toHexString` and `fromHex`, on byte images and on
text as a list of characters. -/

namespace Sys2Proof.Machine

open Config (HostParams)

/-- The hex digit of a number below 16, in the configured case (47_text_formatting.md R147). -/
def hexDigit (upper : Bool) (d : Nat) : Char :=
  if d < 10 then Char.ofNat (48 + d)
  else if upper then Char.ofNat (55 + d)
  else Char.ofNat (87 + d)

/-- The value of a hex digit of either case; no other character has one (47_text_formatting.md R144). -/
def digitValue (c : Char) : Option Nat :=
  if 48 ≤ c.toNat ∧ c.toNat ≤ 57 then some (c.toNat - 48)
  else if 65 ≤ c.toNat ∧ c.toNat ≤ 70 then some (c.toNat - 55)
  else if 97 ≤ c.toNat ∧ c.toNat ≤ 102 then some (c.toNat - 87)
  else none

/-- Exactly two digits (47_text_formatting.md R141, `hex2`). -/
def hexPair (upper : Bool) (b : Byte) : List Char :=
  [hexDigit upper (b.toNat / 16), hexDigit upper (b.toNat % 16)]

/-- One digit for `0x0F` and below, else two (47_text_formatting.md R141, `hex_no_leading_zero`). -/
def hexLeading (upper : Bool) (b : Byte) : List Char :=
  if b.toNat ≤ 0x0F then [hexDigit upper b.toNat] else hexPair upper b

/-- `toHexString` (47_text_formatting.md R141): leading zero bytes suppressed, `"0"` for an all-zero image. -/
def toHexString (p : HostParams) (img : List Byte) : List Char :=
  match img.reverse.dropWhile (· == 0) with
  | [] => ['0']
  | b :: bs => hexLeading p.hexUpper b ++ bs.flatMap (hexPair p.hexUpper)

/-- The bytes of an even-length text, in text order; none at a character that is no hex digit
(47_text_formatting.md R142, R144). -/
def parsePairs : List Char → Option (List Byte)
  | [] => some []
  | [_] => none
  | hi :: lo :: rest =>
    match digitValue hi, digitValue lo, parsePairs rest with
    | some h, some l, some bs => some (BitVec.ofNat 8 (16 * h + l) :: bs)
    | _, _, _ => none

/-- `fromHex` (47_text_formatting.md R142, R144): an odd text is padded with a `0` on the left; the bytes are reversed and
stored by `fromBytes`; a bad character gives an error and no image. -/
def fromHex (w : Width) (text : List Char) : Except HostError (List Byte) :=
  let even := if text.length % 2 = 1 then '0' :: text else text
  match parsePairs even with
  | some bytes => .ok (fromBytes w bytes.reverse)
  | none => .error .invalidHexDigit

end Sys2Proof.Machine
end

