-- ==== Sys2Proof/Machine/Limbs.lean ====
section
/-! DEFINITION. The reference algorithms over byte limbs: one conforming realisation of the commands (00_scope.md R4). The
commands' meanings do not use them; that they give the same bytes is stated, not assumed. Byte lists are little-endian. -/

namespace Sys2Proof.Machine

/-! ## Addition, subtraction, negation -/

/-- Ripple-carry addition (41_add_sub_neg.md R83); the carry out of the last position is dropped. -/
def rippleAdd : Nat → List Byte → List Byte → List Byte
  | c, a :: as, b :: bs =>
    BitVec.ofNat 8 ((a.toNat + b.toNat + c) % 256) :: rippleAdd ((a.toNat + b.toNat + c) / 256) as bs
  | _, _, _ => []

/-- Ripple-borrow subtraction (41_add_sub_neg.md R84); the borrow out of the last position is dropped. -/
def rippleSub : Nat → List Byte → List Byte → List Byte
  | w, a :: as, b :: bs =>
    if a.toNat < b.toNat + w then BitVec.ofNat 8 (a.toNat + 256 - (b.toNat + w)) :: rippleSub 1 as bs
    else BitVec.ofNat 8 (a.toNat - (b.toNat + w)) :: rippleSub 0 as bs
  | _, _, _ => []

/-- Complement every byte and add the incoming carry (41_add_sub_neg.md R85); the command starts with carry 1. -/
def complementAddCarry : Nat → List Byte → List Byte
  | c, a :: as =>
    BitVec.ofNat 8 (((a ^^^ 0xFF).toNat + c) % 256) :: complementAddCarry (((a ^^^ 0xFF).toNat + c) / 256) as
  | _, [] => []

/-! ## Multiplication -/

/-- One row of 42_multiply.md R92: `x * b` added into the accumulator with a byte carry, then the carry run on through the
accumulator; positions past its end are dropped. -/
def mulRow (x : Byte) : Nat → List Byte → List Byte → List Byte
  | _, [], _ => []
  | c, r :: rs, b :: bs =>
    BitVec.ofNat 8 ((r.toNat + x.toNat * b.toNat + c) % 256)
      :: mulRow x ((r.toNat + x.toNat * b.toNat + c) / 256) rs bs
  | c, r :: rs, [] => BitVec.ofNat 8 ((r.toNat + c) % 256) :: mulRow x ((r.toNat + c) / 256) rs []

/-- The rows of 42_multiply.md R92 for the bytes of `a`, each one position further up the accumulator. -/
def mulRows : List Byte → List Byte → List Byte → List Byte
  | acc, [], _ => acc
  | acc, a :: as, b =>
    match mulRow a 0 acc b with
    | [] => []
    | r :: rs => r :: mulRows rs as b

/-- Schoolbook multiplication to `m` bytes (42_multiply.md R92). -/
def schoolbook (m : Nat) (a b : List Byte) : List Byte := mulRows (List.replicate m 0) a b

/-- The sign bit of a byte image, bit 7 of its last byte (40_storage_construction.md R70). -/
def imageSign (img : List Byte) : Bool := (img.getLastD 0).getLsbD 7

/-- An image followed by as many bytes again of its sign (42_multiply.md R93). -/
def signExtend (img : List Byte) : List Byte :=
  img ++ List.replicate img.length (if imageSign img then 0xFF else 0x00)

/-- The signed full multiply: both operands sign-extended to twice the length, multiplied at that length
(42_multiply.md R93). -/
def schoolbookSigned (a b : List Byte) : List Byte :=
  schoolbook (2 * a.length) (signExtend a) (signExtend b)

/-! ## Division -/

/-- Bit `i` of a byte image (46_bit_utilities.md R134). -/
def imageBit (img : List Byte) (i : Nat) : Bool := (img.getD (i / 8) 0).getLsbD (i % 8)

/-- Restoring division after the top `k` of `n` dividend bits: quotient so far and partial remainder
(43_divide.md R105). -/
def restoringSteps (a : List Byte) (b n : Nat) : Nat → Nat × Nat
  | 0 => (0, 0)
  | k + 1 =>
    let p := restoringSteps a b n k
    let rem := 2 * p.2 + (imageBit a (n - 1 - k)).toNat
    if b ≤ rem then (2 * p.1 + 1, rem - b) else (2 * p.1, rem)

/-- Unsigned long division of byte images of one length: quotient and remainder bytes (43_divide.md R105). -/
def restoringDivide (a b : List Byte) : List Byte × List Byte :=
  let p := restoringSteps a (leValue b) (8 * a.length) (8 * a.length)
  (leBytes a.length p.1, leBytes a.length p.2)

/-- `NEG` of an image when the flag is set (43_divide.md R106). -/
def negateIf (n : Bool) (img : List Byte) : List Byte := if n then complementAddCarry 1 img else img

/-- Signed division by magnitudes (43_divide.md R106). -/
def restoringDivideSigned (a b : List Byte) : List Byte × List Byte :=
  let p := restoringDivide (negateIf (imageSign a) a) (negateIf (imageSign b) b)
  (negateIf (imageSign a != imageSign b) p.1, negateIf (imageSign a) p.2)

/-! ## Shifts -/

/-- A source byte; an index outside the image reads as the fill byte (44_shift.md R113, `src`). -/
def sourceByte (img : List Byte) (fill : Byte) (j : Int) : Byte :=
  if 0 ≤ j ∧ j < img.length then img.getD j.toNat 0 else fill

/-- The two-stage left shift (44_shift.md R113). -/
def limbShiftLeft (img : List Byte) (n : Nat) : List Byte :=
  if 8 * img.length ≤ n then List.replicate img.length 0
  else (List.range img.length).map fun i =>
    (sourceByte img 0 ((i : Int) - (n / 8 : Nat)) <<< (n % 8))
      ||| (sourceByte img 0 ((i : Int) - (n / 8 : Nat) - 1) >>> (8 - n % 8))

/-- The two-stage right shift with fill byte `f` (44_shift.md R113). -/
def limbShiftRight (f : Byte) (img : List Byte) (n : Nat) : List Byte :=
  if 8 * img.length ≤ n then List.replicate img.length f
  else (List.range img.length).map fun i =>
    (sourceByte img f ((i : Int) + (n / 8 : Nat)) >>> (n % 8))
      ||| (sourceByte img f ((i : Int) + (n / 8 : Nat) + 1) <<< (8 - n % 8))

/-- The fill byte of a right shift: `0xFF` for a signed shift of a negative source (44_shift.md R113). -/
def fillByte (sg : Signedness) (img : List Byte) : Byte :=
  if sg = .signed ∧ imageSign img then 0xFF else 0x00

/-! ## Comparison and the highest set bit -/

/-- The scan of 45_compare.md R121 over lists whose first byte is the most significant one. -/
def scanCompare : List Byte → List Byte → Ordering
  | a :: as, b :: bs => if a = b then scanCompare as bs else if a.toNat < b.toNat then .lt else .gt
  | _, _ => .eq

/-- `unsignedCompare` (45_compare.md R121). -/
def limbCompareUnsigned (a b : List Byte) : Ordering := scanCompare a.reverse b.reverse

/-- The first byte of a list with bit 7 inverted (45_compare.md R122). -/
def flipTop : List Byte → List Byte
  | a :: as => (a ^^^ 0x80) :: as
  | [] => []

/-- `signedCompare`: the same scan with bit 7 of both top bytes inverted (45_compare.md R122). -/
def limbCompareSigned (a b : List Byte) : Ordering := scanCompare (flipTop a.reverse) (flipTop b.reverse)

/-- The highest set bit among bits `n - 1` down to 0 of a byte (46_bit_utilities.md R130). -/
def highestBitBelow (b : Byte) : Nat → Option Nat
  | 0 => none
  | n + 1 => if b.getLsbD n then some n else highestBitBelow b n

/-- The scan of 46_bit_utilities.md R130 from byte `n - 1` down to byte 0: the highest nonzero byte, then its highest set
bit, as `byteIndex*8 + bitIndex`. -/
def scanHighestBit (img : List Byte) : Nat → Option Nat
  | 0 => none
  | n + 1 =>
    match highestBitBelow (img.getD n 0) 8 with
    | some j => some (8 * n + j)
    | none => scanHighestBit img n

end Sys2Proof.Machine
end

