-- ==== Sys2Proof/Machine/Roles.lean ====
section
/-! DEFINITION. What each command reads and writes, from the operands column of 30_encoding.md R60 and the commands' rules:
the terms in which frames are stated. -/

namespace Sys2Proof

/-- The wide registers a command may write (00_scope.md R5: "it changes only the destinations its rule names"). -/
def Instr.destinations : Instr → List RegNum
  | .nop => []
  | .neg _ _ rd _ => [rd]
  | .add _ _ rd _ _ => [rd]
  | .sub _ _ rd _ _ => [rd]
  | .mull _ _ rd _ _ => [rd]
  | .mulf _ _ rd _ _ => [rd]
  | .divmod _ _ rd re _ _ => [rd, re]
  | .mod _ _ rd _ _ => [rd]
  | .shl _ _ rd _ _ => [rd]
  | .shr _ _ rd _ _ => [rd]
  | .cmp _ _ _ _ => []
  | .hsb _ _ _ => []
  | .bset _ _ rd _ => [rd]
  | .bclr _ _ rd _ => [rd]
  | .btst _ _ _ _ => []
  | .div _ _ rd _ _ => [rd]
  | .mov _ rd _ => [rd]
  | .zero rd => [rd]

/-- The wide registers a command reads. -/
def Instr.sources : Instr → List RegNum
  | .nop => []
  | .neg _ _ _ ra => [ra]
  | .add _ _ _ ra rb => [ra, rb]
  | .sub _ _ _ ra rb => [ra, rb]
  | .mull _ _ _ ra rb => [ra, rb]
  | .mulf _ _ _ ra rb => [ra, rb]
  | .divmod _ _ _ _ ra rb => [ra, rb]
  | .mod _ _ _ ra rb => [ra, rb]
  | .shl _ _ _ ra _ => [ra]
  | .shr _ _ _ ra _ => [ra]
  | .cmp _ _ ra rb => [ra, rb]
  | .hsb _ _ ra => [ra]
  | .bset _ _ rd _ => [rd]
  | .bclr _ _ rd _ => [rd]
  | .btst _ _ ra _ => [ra]
  | .div _ _ _ ra rb => [ra, rb]
  | .mov _ _ ra => [ra]
  | .zero rd => [rd]

/-- The operating width; NOP has none and reads nothing, and ZERO is a 256-bit SUB (30_encoding.md R66). -/
def Instr.width : Instr → Option Width
  | .nop => none
  | .neg w _ _ _ => some w
  | .add w _ _ _ _ => some w
  | .sub w _ _ _ _ => some w
  | .mull w _ _ _ _ => some w
  | .mulf w _ _ _ _ => some w
  | .divmod w _ _ _ _ _ => some w
  | .mod w _ _ _ _ => some w
  | .shl w _ _ _ _ => some w
  | .shr w _ _ _ _ => some w
  | .cmp w _ _ _ => some w
  | .hsb w _ _ => some w
  | .bset w _ _ _ => some w
  | .bclr w _ _ _ => some w
  | .btst w _ _ _ => some w
  | .div w _ _ _ _ => some w
  | .mov w _ _ => some w
  | .zero _ => some .w256

/-- The commands that write X (10_state.md R16). -/
def Instr.writesScalar : Instr → Bool
  | .cmp _ _ _ _ => true
  | .hsb _ _ _ => true
  | .btst _ _ _ _ => true
  | .nop => false
  | .neg _ _ _ _ => false
  | .add _ _ _ _ _ => false
  | .sub _ _ _ _ _ => false
  | .mull _ _ _ _ _ => false
  | .mulf _ _ _ _ _ => false
  | .divmod _ _ _ _ _ _ => false
  | .mod _ _ _ _ _ => false
  | .shl _ _ _ _ _ => false
  | .shr _ _ _ _ _ => false
  | .bset _ _ _ _ => false
  | .bclr _ _ _ _ => false
  | .div _ _ _ _ _ => false
  | .mov _ _ _ => false
  | .zero _ => false

/-- The two commands that change one bit of their register in place (10_state.md R12). -/
def Instr.inPlace : Instr → Bool
  | .bset _ _ _ _ => true
  | .bclr _ _ _ _ => true
  | .nop => false
  | .neg _ _ _ _ => false
  | .add _ _ _ _ _ => false
  | .sub _ _ _ _ _ => false
  | .mull _ _ _ _ _ => false
  | .mulf _ _ _ _ _ => false
  | .divmod _ _ _ _ _ _ => false
  | .mod _ _ _ _ _ => false
  | .shl _ _ _ _ _ => false
  | .shr _ _ _ _ _ => false
  | .cmp _ _ _ _ => false
  | .hsb _ _ _ => false
  | .btst _ _ _ _ => false
  | .div _ _ _ _ _ => false
  | .mov _ _ _ => false
  | .zero _ => false

/-- The number of result bits a command writes to each of its destinations: 2W for MULF, else W
(10_state.md R12). -/
def Instr.resultBits : Instr → Nat
  | .nop => 0
  | .neg w _ _ _ => w.bits
  | .add w _ _ _ _ => w.bits
  | .sub w _ _ _ _ => w.bits
  | .mull w _ _ _ _ => w.bits
  | .mulf w _ _ _ _ => 2 * w.bits
  | .divmod w _ _ _ _ _ => w.bits
  | .mod w _ _ _ _ => w.bits
  | .shl w _ _ _ _ => w.bits
  | .shr w _ _ _ _ => w.bits
  | .cmp _ _ _ _ => 0
  | .hsb _ _ _ => 0
  | .bset _ _ _ _ => 1
  | .bclr _ _ _ _ => 1
  | .btst _ _ _ _ => 0
  | .div w _ _ _ _ => w.bits
  | .mov w _ _ => w.bits
  | .zero _ => 256

/-- The double-width partner of a width; 1024 has none (42_multiply.md R94, 00_scope.md R3). -/
def Width.double : Width → Option Width
  | .w256 => some .w512
  | .w512 => some .w1024
  | .w1024 => none

namespace Machine

/-- Nothing but wide register `n` differs. -/
def OnlyRegister (s t : State) (n : RegNum) : Prop :=
  (∀ m, m ≠ n → t.reg m = s.reg m) ∧ t.x = s.x ∧ t.fault = s.fault ∧ t.finfo = s.finfo ∧
    t.pending = s.pending ∧ t.replies = s.replies

/-- Nothing but X differs. -/
def OnlyScalar (s t : State) : Prop :=
  (∀ m, t.reg m = s.reg m) ∧ t.fault = s.fault ∧ t.finfo = s.finfo ∧
    t.pending = s.pending ∧ t.replies = s.replies

/-- The block has recorded cause `code` for the command word, and nothing else differs (60_exceptions.md R166). -/
def FaultRecorded (s t : State) (code : BitVec 3) (cmd : Word) : Prop :=
  t.fault = code ∧ t.finfo = cmd ∧ (∀ m, t.reg m = s.reg m) ∧ t.x = s.x ∧
    t.pending = s.pending ∧ t.replies = s.replies

end Machine
end Sys2Proof
end

