-- ==== Sys2Proof/Safety.lean ====
section
/-! DEFINITION. Runs and what went wrong in one (48_system.md R154), the recorded-fault discipline of 60_exceptions.md as an
invariant, and when two states agree as far as the block is concerned. -/

namespace Sys2Proof.Machine

/-- "A run is a finite list of host transactions applied in order from a start state; its end state is the state after the
last one" (48_system.md R154). A refused event gives the run no end state (93_implementation_defined.md, `refuse`). -/
def run : List Event → State → Outcome
  | [], s => .next s
  | e :: es, s =>
    match deliver e s with
    | .next t => run es t
    | .fault r => .fault r
    | .refused r => .refused r

/-- The event is the acknowledge of 60_exceptions.md R168 in this state: a 32-bit write of any value to FAULT while the
recorded cause is DivisionByZero. -/
def acknowledges (e : Event) (s : State) : Bool :=
  s.fault == FaultCause.divisionByZero.code &&
    match e with
    | .hostWrite off size _ => off == 0x408 && size == 4
    | .hostRead _ _ => false
    | .reset => false

/-- "The run went wrong if FAULT is nonzero at the end, or was nonzero at any point unless the host's script includes the
acknowledge of rule R168 at that point" (48_system.md R154). A point is a state between two events of the script, and what
the script includes there is the next event, so a faulted block must be acknowledged at once (log entry 13). A run that has
no end state is counted as wrong. -/
def wentWrong : List Event → State → Bool
  | [], s => s.faulted
  | e :: es, s =>
    (s.faulted && !acknowledges e s) ||
      match deliver e s with
      | .next t => wentWrong es t
      | .fault _ => true
      | .refused _ => true

/-- The two states hold the same block: V0 to V7, X, FAULT and FINFO, which is all of it (10_state.md R22). What is pending
and what has been read may differ. -/
def SameBlock (s t : State) : Prop := s.v = t.v ∧ s.x = t.x ∧ s.fault = t.fault ∧ s.finfo = t.finfo

/-- A word whose execution can raise DivisionByZero (60_exceptions.md R160): it decodes to DIVMOD or MOD. -/
def isDivision (w : Word) : Bool :=
  match decode w with
  | .ok i => i.operation == .divmod || i.operation == .mod
  | .error _ => false

/-- The index and width of a bit command's word. -/
def bitIndexOf (w : Word) : Option (Nat × Width) :=
  match decode w with
  | .ok (.bset wd _ _ i) => some (i.toNat, wd)
  | .ok (.bclr wd _ _ i) => some (i.toNat, wd)
  | .ok (.btst wd _ _ i) => some (i.toNat, wd)
  | _ => none

/-- A word whose execution raises IndexOutOfRange (60_exceptions.md R160): BSET, BCLR or BTST with `imm16 >= W`. -/
def isIndexOutOfRange (w : Word) : Bool :=
  match bitIndexOf w with
  | some (i, wd) => decide (wd.bits ≤ i)
  | none => false

/-- A word that is not one of the 15 commands (60_exceptions.md R160, 30_encoding.md R62). -/
def isIllegal (w : Word) : Bool :=
  match decode w with
  | .ok _ => false
  | .error _ => true

/-- What FAULT and FINFO say is true: FINFO is 0 when no fault is recorded, otherwise it is a command word that raises the
recorded cause; the codes 4 to 7 do not occur (10_state.md R17, R18, 60_exceptions.md R160, R166). -/
def faultRecordOk (f : BitVec 3) (w : Word) : Bool :=
  (f == 0 && w == 0) || (f == 1 && isDivision w) || (f == 2 && isIndexOutOfRange w) || (f == 3 && isIllegal w)

/-- X holds a value CMP, HSB or BTST writes: 0 to 1023, or -1 (10_state.md R16). -/
def scalarOk (x : Scalar) : Bool := decide (x.toNat < 1024) || x == 0xFFFF

/-- The invariant of the block's recorded results. -/
def State.inv (s : State) : Bool := faultRecordOk s.fault s.finfo && scalarOk s.x

/-- The must-be-zero mask of each operation, as the table `MBZ` of 30_encoding.md R61 writes it out for the operation's
format (R60); the decoder reads the bit ranges of R52 instead. -/
def mustBeZeroMask : Nat → Word
  | 0 => 0x07FFFFFF
  | 1 => 0x0003FFFF
  | 2 => 0x00007FFF
  | 3 => 0x00007FFF
  | 4 => 0x00007FFF
  | 5 => 0x00007FFF
  | 6 => 0x00000FFF
  | 7 => 0x00007FFF
  | 8 => 0x00030000
  | 9 => 0x00030000
  | 10 => 0x00E07FFF
  | 11 => 0x00E3FFFF
  | 12 => 0x001F0000
  | 13 => 0x001F0000
  | 14 => 0x00E30000
  | _ => 0

/-- The value of a text read as a big-endian hexadecimal numeral, digit by digit; a character that is no digit counts as 0
(47_text_formatting.md R142). -/
def hexNumeral (text : List Char) : Nat := text.foldl (fun acc c => 16 * acc + (digitValue c).getD 0) 0

end Sys2Proof.Machine
end

