-- ==== Sys2Proof/Certificates/Slice0/Obligations.lean ====
section
/-! DEFINITION. The statements for the provers. Hypotheses are on the state and the operands alone; `s.fault = 0` says the
block is running (10_state.md R17), and what a faulted block does has statements of its own. -/

open Sys2Proof Sys2Proof.Machine

/-! ## Reset, steps and the host's events -/

/-- 10_state.md R23. -/
def Obligations.ResetStateIsAllZero : Prop :=
  (∀ (n : RegNum) (k : Nat), byteOf (State.reset.reg n) k = 0) ∧
  State.reset.x = 0 ∧ State.reset.fault = 0 ∧ State.reset.finfo = 0

/-- 70_reset_and_hazards.md R180: the effect of the reset event in every state, faulted or not, and that it is the only way
out of the two fatal faults. -/
def Obligations.ResetEventClearsTheBlockAndAloneEndsFatalFaults : Prop :=
  (∀ s : State, ∃ t, deliver .reset s = .next t ∧ (∀ (n : RegNum) (k : Nat), byteOf (t.reg n) k = 0) ∧
    t.x = 0 ∧ t.fault = 0 ∧ t.finfo = 0 ∧ t.pending = s.pending ∧ t.replies = s.replies) ∧
  (∀ (s t : State) (e : Event), deliver e s = .next t → (s.fault = 2 ∨ s.fault = 3) → t.fault ≠ s.fault →
    e = .reset)

/-- A step whose event is the CMD write of a legal word is the meaning of the decoded command, after the event is taken
from the script; so is a step on the state the host prepares with a table word. The last clause is the model's choice (log
entry 2): with nothing pending a step is idle. -/
def Obligations.StepRunsTheDecodedCommand : Prop :=
  (∀ (s : State) (rest : List Event) (w : Word) (i : Instr), s.pending = cmdWrite w :: rest →
    decode w = .ok i → step s = exec i { s with pending := rest }) ∧
  (∀ (s : State) (nbits w : Nat) (i : Instr), decodeTableWord nbits w = some i →
    step (s.withFetchWord nbits w) = exec i s) ∧
  (∀ s : State, s.pending = [] → step s = .next s)

/-- 20_memory.md R42: one transaction at a time, in the host's order, and the block's next state and the value returned are
a function of the block's state and the transaction alone. -/
def Obligations.BlockStateFollowsFromBlockAndTransactionAlone : Prop :=
  (∀ (s : State) (e : Event) (rest : List Event), s.pending = e :: rest →
    step s = deliver e { s with pending := rest }) ∧
  (∀ (s s' t : State) (e : Event), SameBlock s s' → deliver e s = .next t →
    ∃ t', deliver e s' = .next t' ∧ SameBlock t t' ∧
      t.pending = s.pending ∧ t'.pending = s'.pending ∧
      ∃ r, t.replies = s.replies ++ r ∧ t'.replies = s'.replies ++ r)

/-- 20_memory.md R33 (a byte read), R37 (CMD), R38 (X) and R40 (FINFO): what a host read returns, in every state, with
nothing else changed, the writes that are ignored, and the write to CMD: the word's command, the recorded IllegalCommand, or
nothing while the block is faulted. -/
def Obligations.HostReadsReturnTheRegisters : Prop :=
  (∀ (s : State) (n : RegNum) (k : Nat), k < 128 →
    deliver (.hostRead (0x80 * n.val + k) 1) s = .next { s with replies := s.replies ++ [.byte (byteOf (s.reg n) k)] }) ∧
  (∀ s : State, deliver (.hostRead 0x400 4) s = .next { s with replies := s.replies ++ [.word 0] }) ∧
  (∀ s : State, deliver (.hostRead 0x404 4) s = .next { s with replies := s.replies ++ [.word (s.x.setWidth 32)] }) ∧
  (∀ s : State, deliver (.hostRead 0x40C 4) s = .next { s with replies := s.replies ++ [.word s.finfo] }) ∧
  (∀ (s : State) (v : Nat), v < 2 ^ 32 →
    deliver (.hostWrite 0x404 4 v) s = .next s ∧ deliver (.hostWrite 0x40C 4 v) s = .next s) ∧
  (∀ (s : State) (w : Word),
    (∀ i, decode w = .ok i → deliver (.hostWrite 0x400 4 w.toNat) s = exec i s) ∧
    (isIllegal w = true → s.fault = 0 →
      ∃ t, deliver (.hostWrite 0x400 4 w.toNat) s = .next t ∧ FaultRecorded s t 3 w) ∧
    (s.fault ≠ 0 → deliver (.hostWrite 0x400 4 w.toNat) s = .next s))

/-- 20_memory.md R34: a host byte write sets one byte and changes no other byte and no other state. -/
def Obligations.HostByteWriteChangesOneByte : Prop :=
  ∀ (s : State) (n : RegNum) (k v : Nat), k < 128 → v < 256 →
    ∃ t, deliver (.hostWrite (0x80 * n.val + k) 1 v) s = .next t ∧
      (byteOf (t.reg n) k).toNat = v ∧
      (∀ (m : RegNum) (j : Nat), j < 128 → (m ≠ n ∨ j ≠ k) → byteOf (t.reg m) j = byteOf (s.reg m) j) ∧
      OnlyRegister s t n

/-- 20_memory.md R36: the admitted accesses, and that every other one has no step. -/
def Obligations.OnlyTheWindowsAccessesAreAdmitted : Prop :=
  ∀ (s : State) (off size v : Nat), v < 256 ^ size →
    (((size = 1 ∧ off < 0x400) ∨ (size = 4 ∧ (off = 0x400 ∨ off = 0x404 ∨ off = 0x408 ∨ off = 0x40C))) →
      (∃ t, deliver (.hostRead off size) s = .next t) ∧ (∃ t, deliver (.hostWrite off size v) s = .next t)) ∧
    (¬ ((size = 1 ∧ off < 0x400) ∨ (size = 4 ∧ (off = 0x400 ∨ off = 0x404 ∨ off = 0x408 ∨ off = 0x40C))) →
      deliver (.hostRead off size) s = .refused (.accessNotAdmitted off size) ∧
      deliver (.hostWrite off size v) s = .refused (.accessNotAdmitted off size))

/-- 40_storage_construction.md R76, R77: an image loaded byte by byte is what the register then holds and what reading it
back returns; every other byte keeps its value. -/
def Obligations.LoadedImageIsHeldAndReadBack : Prop :=
  ∀ (s : State) (n : RegNum) (img : List Byte), img.length ≤ 128 →
    ∃ t, run (loadImage n img ++ readImage n img.length) s = .next t ∧
      t.replies = s.replies ++ img.map .byte ∧
      (∀ k, k < img.length → byteOf (t.reg n) k = img.getD k 0) ∧
      (∀ k, img.length ≤ k → k < 128 → byteOf (t.reg n) k = byteOf (s.reg n) k) ∧
      (∀ m, m ≠ n → t.reg m = s.reg m) ∧ t.x = s.x ∧ t.fault = s.fault ∧ t.finfo = s.finfo

/-! ## Encoding -/

/-- Words of 30_encoding.md section 7, written there bit field by bit field, decode to the commands they stand for. -/
def Obligations.WorkedEncodingsDecode : Prop :=
  decode 0x09200000 = .ok (.neg .w256 .signed 1 0) ∧
  decode 0x15FF8000 = .ok (.add .w1024 .signed 7 7 7) ∧
  decode 0x2BFA8000 = .ok (.mulf .w512 .signed 7 6 5) ∧
  decode 0x30684000 = .ok (.divmod .w256 .unsigned 3 4 2 0) ∧
  decode 0x49440004 = .ok (.shr .w256 .signed 2 1 4) ∧
  decode 0x51008000 = .ok (.cmp .w256 .signed 0 1) ∧
  decode 0x5A080000 = .ok (.hsb .w512 .unsigned 2) ∧
  decode 0x6CE003FF = .ok (.bclr .w1024 .unsigned 7 1023) ∧
  decode 0x70040011 = .ok (.btst .w256 .unsigned 1 17)

/-- Every command the block has is read back from its word, a pseudo-command as the command it is an alias of; the one
ill-formed term has an illegal word. -/
def Obligations.EveryInstructionIsReadBackFromItsWord : Prop :=
  ∀ i : Instr, (i.wf = true → decode (encode i) = .ok i.expand) ∧
    (i.wf = false → decode (encode i) = .error .fullMultiplyAt1024)

/-- A word the decoder accepts is the word of the command it answers, which is a core command of the block: no bit of a
legal word is dropped, so no two words stand for one command. -/
def Obligations.EveryLegalWordIsTheWordOfItsInstruction : Prop :=
  ∀ (w : Word) (i : Instr), decode w = .ok i → encode i = w ∧ i.wf = true ∧ i.expand = i

/-- 30_encoding.md R62: the illegal words are exactly (a) to (e), each raises IllegalCommand and writes no register, and
no word but 0 is NOP. -/
def Obligations.IllegalWordsAreExactlyTheListed : Prop :=
  (∀ w : Word, (isIllegal w = true ↔
    15 ≤ w.toNat / 2 ^ 27 ∨
    (w.toNat / 2 ^ 27 = 0 ∧ w ≠ 0) ∨
    (w.toNat / 2 ^ 25 % 4 = 3 ∧ 1 ≤ w.toNat / 2 ^ 27 ∧ w.toNat / 2 ^ 27 ≤ 14) ∨
    w &&& mustBeZeroMask (w.toNat / 2 ^ 27) ≠ 0 ∨
    (w.toNat / 2 ^ 27 = 5 ∧ w.toNat / 2 ^ 25 % 4 = 2))) ∧
  (∀ (w : Word) (s : State), isIllegal w = true → s.fault = 0 →
    ∃ t, deliver (cmdWrite w) s = .next t ∧ FaultRecorded s t 3 w) ∧
  (∀ w : Word, decode w = .ok .nop ↔ w = 0)

/-- 30_encoding.md R66: each pseudo-command has the word and the effect of its expansion, MOV copies the low W bits and
zeroes the rest, ZERO clears all 1024 bits. -/
def Obligations.PseudoCommandsAreTheirExpansions : Prop :=
  (∀ (i : Instr) (s : State), encode i = encode i.expand ∧ exec i s = exec i.expand s) ∧
  (∀ (s : State) (w : Width) (rd ra : RegNum), s.fault = 0 →
    ∃ t, exec (.mov w rd ra) s = .next t ∧ (t.reg rd).toNat = (s.reg ra).toNat % 2 ^ w.bits ∧ OnlyRegister s t rd) ∧
  (∀ (s : State) (rd : RegNum), s.fault = 0 →
    ∃ t, exec (.zero rd) s = .next t ∧ t.reg rd = 0 ∧ OnlyRegister s t rd)

/-- 30_encoding.md R67: the nine sign-agnostic commands write the same for both values of `sgn`, and each of the five
sign-sensitive ones has a state in which the results differ. -/
def Obligations.SignednessMattersToFiveCommandsOnly : Prop :=
  (∀ (s : State) (w : Width) (rd ra rb : RegNum) (i : Imm16) (sg sg' : Signedness),
    exec (.neg w sg rd ra) s = exec (.neg w sg' rd ra) s ∧
    exec (.add w sg rd ra rb) s = exec (.add w sg' rd ra rb) s ∧
    exec (.sub w sg rd ra rb) s = exec (.sub w sg' rd ra rb) s ∧
    exec (.mull w sg rd ra rb) s = exec (.mull w sg' rd ra rb) s ∧
    exec (.shl w sg rd ra i) s = exec (.shl w sg' rd ra i) s ∧
    exec (.hsb w sg ra) s = exec (.hsb w sg' ra) s ∧
    (∀ t t', (exec (.bset w sg rd i) s = .next t ∧ exec (.bset w sg' rd i) s = .next t') ∨
        (exec (.bclr w sg rd i) s = .next t ∧ exec (.bclr w sg' rd i) s = .next t') ∨
        (exec (.btst w sg ra i) s = .next t ∧ exec (.btst w sg' ra i) s = .next t') →
      t.v = t'.v ∧ t.x = t'.x ∧ t.fault = t'.fault)) ∧
  (∃ s t t' : State, exec (.mulf .w256 .unsigned 2 0 1) s = .next t ∧ exec (.mulf .w256 .signed 2 0 1) s = .next t' ∧
    t.reg 2 ≠ t'.reg 2) ∧
  (∃ s t t' : State, exec (.divmod .w256 .unsigned 2 3 0 1) s = .next t ∧
    exec (.divmod .w256 .signed 2 3 0 1) s = .next t' ∧ t.reg 2 ≠ t'.reg 2 ∧ t.reg 3 ≠ t'.reg 3) ∧
  (∃ s t t' : State, exec (.mod .w256 .unsigned 2 0 1) s = .next t ∧ exec (.mod .w256 .signed 2 0 1) s = .next t' ∧
    t.reg 2 ≠ t'.reg 2) ∧
  (∃ s t t' : State, exec (.shr .w256 .unsigned 2 0 1) s = .next t ∧ exec (.shr .w256 .signed 2 0 1) s = .next t' ∧
    t.reg 2 ≠ t'.reg 2) ∧
  (∃ s t t' : State, exec (.cmp .w256 .unsigned 0 1) s = .next t ∧ exec (.cmp .w256 .signed 0 1) s = .next t' ∧
    t.x ≠ t'.x)

/-! ## NOP, NEG, ADD, SUB -/

/-- 48_system.md R150. -/
def Obligations.NopChangesNothing : Prop :=
  (∀ s : State, exec .nop s = .next s) ∧ encode .nop = 0 ∧
  (∀ w : Word, w.toNat / 2 ^ 27 = 0 → w ≠ 0 → decode w = .error .nopWithOtherBits)

/-- 41_add_sub_neg.md R80: `(2^W - U) mod 2^W`, which is bitwise-complement-plus-one; the bytes above are zero. -/
def Obligations.NegWritesTheTwosComplement : Prop :=
  ∀ (s : State) (w : Width) (sg : Signedness) (rd ra : RegNum), s.fault = 0 →
    ∃ t, exec (.neg w sg rd ra) s = .next t ∧
      (t.reg rd).toNat = (2 ^ w.bits - s.unsigned w ra) % 2 ^ w.bits ∧
      (t.reg rd).setWidth w.bits = ~~~((s.reg ra).setWidth w.bits) + 1 ∧
      OnlyRegister s t rd

/-- 41_add_sub_neg.md R81: the sum modulo `2^W`, the same from the unsigned and from the signed values. -/
def Obligations.AddWritesTheSumModuloTwoToTheWidth : Prop :=
  ∀ (s : State) (w : Width) (sg sg' : Signedness) (rd ra rb : RegNum), s.fault = 0 →
    ∃ t, exec (.add w sg rd ra rb) s = .next t ∧
      (t.reg rd).toNat = (s.unsigned w ra + s.unsigned w rb) % 2 ^ w.bits ∧
      (t.reg rd).toNat = enc w.bits (s.value sg' w ra + s.value sg' w rb) ∧
      OnlyRegister s t rd

/-- 41_add_sub_neg.md R82: minuend `ra`, subtrahend `rb`, modulo `2^W`. -/
def Obligations.SubWritesTheDifferenceModuloTwoToTheWidth : Prop :=
  ∀ (s : State) (w : Width) (sg sg' : Signedness) (rd ra rb : RegNum), s.fault = 0 →
    ∃ t, exec (.sub w sg rd ra rb) s = .next t ∧
      (t.reg rd).toNat = (s.unsigned w ra + (2 ^ w.bits - s.unsigned w rb)) % 2 ^ w.bits ∧
      (t.reg rd).toNat = enc w.bits (s.value sg' w ra - s.value sg' w rb) ∧
      OnlyRegister s t rd

/-- 41_add_sub_neg.md R86: the laws of addition, subtraction and negation, read on registers after whole commands. The
destination may be the first operand's register, not the second's. -/
def Obligations.AddingThenSubtractingRecoversTheOperand : Prop :=
  ∀ (s t u v : State) (w : Width) (sg : Signedness) (a b c : RegNum), s.fault = 0 → c ≠ b →
    exec (.add w sg c a b) s = .next t → exec (.sub w sg c c b) t = .next u →
    exec (.neg w sg c c) u = .next v →
    u.unsigned w c = s.unsigned w a ∧ (v.unsigned w c + s.unsigned w a) % 2 ^ w.bits = 0

/-! ## MULL, MULF -/

/-- 42_multiply.md R90: the product truncated to the width, the same from the unsigned and from the signed values. -/
def Obligations.MullWritesTheTruncatedProduct : Prop :=
  ∀ (s : State) (w : Width) (sg sg' : Signedness) (rd ra rb : RegNum), s.fault = 0 →
    ∃ t, exec (.mull w sg rd ra rb) s = .next t ∧
      (t.reg rd).toNat = (s.unsigned w ra * s.unsigned w rb) % 2 ^ w.bits ∧
      (t.reg rd).toNat = enc w.bits (s.value sg' w ra * s.value sg' w rb) ∧
      OnlyRegister s t rd

/-- 42_multiply.md section 1: read at the double width with the command's signedness, the result is the exact product;
bytes above it are zero, and its low half is the truncated product. -/
def Obligations.MulfWritesTheExactProduct : Prop :=
  ∀ (s : State) (w w2 : Width) (sg : Signedness) (rd ra rb : RegNum), s.fault = 0 → w.double = some w2 →
    ∃ t, exec (.mulf w sg rd ra rb) s = .next t ∧
      t.value sg w2 rd = s.value sg w ra * s.value sg w rb ∧
      (t.reg rd).toNat < 2 ^ w2.bits ∧
      t.unsigned w rd = (s.unsigned w ra * s.unsigned w rb) % 2 ^ w.bits ∧
      OnlyRegister s t rd

/-- 42_multiply.md R91, 30_encoding.md R62 (e): full multiply at width 1024 raises IllegalCommand, as a term and as a
word. -/
def Obligations.MulfAtTheWidestWidthIsIllegal : Prop :=
  ∀ (s : State) (w : Width) (sg : Signedness) (rd ra rb : RegNum), s.fault = 0 → w.double = none →
    ∃ t, exec (.mulf w sg rd ra rb) s = .next t ∧ FaultRecorded s t 3 (encode (.mulf w sg rd ra rb)) ∧
      deliver (cmdWrite (encode (.mulf w sg rd ra rb))) s = .next t

/-- 42_multiply.md R95 (e), the source's property "`a * a / a == a` when `a ≠ 0`": at one width when the square is not
truncated, and always with the full product divided at the double width. -/
def Obligations.SquareDividedByTheOperandRecoversIt : Prop :=
  (∀ (s t u : State) (w : Width) (a b c : RegNum), s.fault = 0 → b ≠ a → s.unsigned w a ≠ 0 →
    s.unsigned w a * s.unsigned w a < 2 ^ w.bits →
    exec (.mull w .unsigned b a a) s = .next t → exec (.div w .unsigned c b a) t = .next u →
    u.unsigned w c = s.unsigned w a) ∧
  (∀ (s t u : State) (w w2 : Width) (a b c d : RegNum), s.fault = 0 → w.double = some w2 → b ≠ a → c ≠ d →
    s.unsigned w2 a = s.unsigned w a → s.unsigned w a ≠ 0 →
    exec (.mulf w .unsigned b a a) s = .next t → exec (.divmod w2 .unsigned c d b a) t = .next u →
    u.unsigned w2 c = s.unsigned w a ∧ u.reg d = 0)

/-! ## DIVMOD, MOD, DIV -/

/-- 43_divide.md R100: the quotient and remainder of the division that truncates toward zero, told by
`a = b*q + r`, `|r| < |b|` and the remainder's sign, or DivisionByZero with nothing written. With `re = rd` only the
quotient is written. -/
def Obligations.DivmodWritesQuotientAndRemainder : Prop :=
  ∀ (s : State) (w : Width) (sg : Signedness) (rd re ra rb : RegNum), s.fault = 0 →
    (s.unsigned w rb = 0 → ∃ t, exec (.divmod w sg rd re ra rb) s = .next t ∧
      FaultRecorded s t 1 (encode (.divmod w sg rd re ra rb))) ∧
    (s.unsigned w rb ≠ 0 → ∃ t q r, exec (.divmod w sg rd re ra rb) s = .next t ∧
      s.value sg w ra = s.value sg w rb * q + r ∧ |r| < |s.value sg w rb| ∧
      (r = 0 ∨ r.sign = (s.value sg w ra).sign) ∧
      (t.reg rd).toNat = enc w.bits q ∧ (re ≠ rd → (t.reg re).toNat = enc w.bits r) ∧
      (∀ m, m ≠ rd → m ≠ re → t.reg m = s.reg m) ∧
      t.x = s.x ∧ t.fault = 0 ∧ t.finfo = s.finfo ∧ t.pending = s.pending ∧ t.replies = s.replies)

/-- 43_divide.md R101: the remainder of R100 alone. -/
def Obligations.ModWritesTheRemainder : Prop :=
  ∀ (s : State) (w : Width) (sg : Signedness) (rd ra rb : RegNum), s.fault = 0 →
    (s.unsigned w rb = 0 → ∃ t, exec (.mod w sg rd ra rb) s = .next t ∧
      FaultRecorded s t 1 (encode (.mod w sg rd ra rb))) ∧
    (s.unsigned w rb ≠ 0 → ∃ t q r, exec (.mod w sg rd ra rb) s = .next t ∧
      s.value sg w ra = s.value sg w rb * q + r ∧ |r| < |s.value sg w rb| ∧
      (r = 0 ∨ r.sign = (s.value sg w ra).sign) ∧
      (t.reg rd).toNat = enc w.bits r ∧ OnlyRegister s t rd)

/-- 43_divide.md R107: DIV writes the quotient of R100 and nothing else, and faults as DIVMOD does. -/
def Obligations.DivWritesTheQuotientAlone : Prop :=
  ∀ (s : State) (w : Width) (sg : Signedness) (rd ra rb : RegNum), s.fault = 0 →
    (s.unsigned w rb = 0 → ∃ t, exec (.div w sg rd ra rb) s = .next t ∧
      FaultRecorded s t 1 (encode (.divmod w sg rd rd ra rb))) ∧
    (s.unsigned w rb ≠ 0 → ∃ t q r, exec (.div w sg rd ra rb) s = .next t ∧
      s.value sg w ra = s.value sg w rb * q + r ∧ |r| < |s.value sg w rb| ∧
      (r = 0 ∨ r.sign = (s.value sg w ra).sign) ∧
      (t.reg rd).toNat = enc w.bits q ∧ OnlyRegister s t rd)

/-- 43_divide.md R103: a divisor whose low W bits are zero faults whatever the dividend and whatever stands above the
width. -/
def Obligations.ZeroDivisorRaisesDivisionByZero : Prop :=
  ∀ (s : State) (w : Width) (sg : Signedness) (rd re ra rb : RegNum), s.fault = 0 →
    (∀ k, k < w.bytes → byteOf (s.reg rb) k = 0) →
    (∃ t, exec (.divmod w sg rd re ra rb) s = .next t ∧ FaultRecorded s t 1 (encode (.divmod w sg rd re ra rb))) ∧
    (∃ t, exec (.mod w sg rd ra rb) s = .next t ∧ FaultRecorded s t 1 (encode (.mod w sg rd ra rb))) ∧
    (∃ t, exec (.div w sg rd ra rb) s = .next t ∧ FaultRecorded s t 1 (encode (.div w sg rd ra rb)))

/-- 43_divide.md R102: the signs and magnitudes of signed division. -/
def Obligations.SignedDivisionSignsAndMagnitudes : Prop :=
  ∀ (s : State) (w : Width) (rd re ra rb : RegNum), s.fault = 0 →
    (s.unsigned w rb = 0 → ∃ t, exec (.divmod w .signed rd re ra rb) s = .next t ∧
      FaultRecorded s t 1 (encode (.divmod w .signed rd re ra rb))) ∧
    (s.unsigned w rb ≠ 0 → ∃ t q r, exec (.divmod w .signed rd re ra rb) s = .next t ∧
      (t.reg rd).toNat = enc w.bits q ∧ (re ≠ rd → (t.reg re).toNat = enc w.bits r) ∧
      q.natAbs = (s.value .signed w ra).natAbs / (s.value .signed w rb).natAbs ∧
      r.natAbs = (s.value .signed w ra).natAbs - (s.value .signed w rb).natAbs * q.natAbs ∧
      (q < 0 ↔ ((s.value .signed w ra < 0) ≠ (s.value .signed w rb < 0)) ∧ q.natAbs ≠ 0) ∧
      (r < 0 ↔ s.value .signed w ra < 0 ∧ r.natAbs ≠ 0))

/-- 43_divide.md R104: the quotient wraps for the most negative value over -1, with remainder 0 and no fault, and for no
other operands. -/
def Obligations.SignedQuotientOverflowWraps : Prop :=
  ∀ (s : State) (w : Width) (sg : Signedness) (rd re ra rb : RegNum), s.fault = 0 → s.unsigned w rb ≠ 0 →
    ∃ t, exec (.divmod w sg rd re ra rb) s = .next t ∧ t.fault = 0 ∧
      ((sg = .signed ∧ s.value sg w ra = -2 ^ (w.bits - 1) ∧ s.value sg w rb = -1) →
        t.unsigned w rd = s.unsigned w ra ∧ t.value .signed w rd = -2 ^ (w.bits - 1) ∧
        (re ≠ rd → t.reg re = 0)) ∧
      (¬ (sg = .signed ∧ s.value sg w ra = -2 ^ (w.bits - 1) ∧ s.value sg w rb = -1) →
        t.value sg w rd = truncDiv (s.value sg w ra) (s.value sg w rb))

/-! ## SHL, SHR -/

/-- 44_shift.md R110: the arithmetic form, and bit by bit for every amount. -/
def Obligations.ShlMovesBitsUp : Prop :=
  ∀ (s : State) (w : Width) (sg : Signedness) (rd ra : RegNum) (n : Imm16), s.fault = 0 →
    ∃ t, exec (.shl w sg rd ra n) s = .next t ∧
      (t.reg rd).toNat = (s.unsigned w ra * 2 ^ n.toNat) % 2 ^ w.bits ∧
      (∀ i, (t.reg rd).getLsbD i =
        (decide (i < w.bits) && decide (n.toNat ≤ i) && (s.reg ra).getLsbD (i - n.toNat))) ∧
      OnlyRegister s t rd

/-- 44_shift.md R111: floor division by `2^n` of the value, and bit by bit: zeros come in for unsigned, copies of the sign
bit for signed. -/
def Obligations.ShrMovesBitsDownBySignedness : Prop :=
  ∀ (s : State) (w : Width) (sg : Signedness) (rd ra : RegNum) (n : Imm16), s.fault = 0 →
    ∃ t, exec (.shr w sg rd ra n) s = .next t ∧
      (t.reg rd).toNat = enc w.bits (s.value sg w ra / 2 ^ n.toNat) ∧
      (∀ i, (t.reg rd).getLsbD i =
        (decide (i < w.bits) &&
          if i + n.toNat < w.bits then (s.reg ra).getLsbD (i + n.toNat)
          else decide (sg = .signed) && (s.reg ra).getLsbD (w.bits - 1))) ∧
      OnlyRegister s t rd

/-- 44_shift.md R112: amounts at or above the width, none reduced modulo W. -/
def Obligations.ShiftsByTheWidthOrMore : Prop :=
  ∀ (s : State) (w : Width) (sg : Signedness) (rd ra : RegNum) (n : Imm16), s.fault = 0 → w.bits ≤ n.toNat →
    (∃ t, exec (.shl w sg rd ra n) s = .next t ∧ t.reg rd = 0) ∧
    (∃ t, exec (.shr w sg rd ra n) s = .next t ∧
      (t.reg rd).toNat = if sg = .signed ∧ (s.reg ra).getLsbD (w.bits - 1) = true then 2 ^ w.bits - 1 else 0)

/-! ## CMP -/

/-- 45_compare.md R120: the order of the values, to X; equality is equality of the low N bytes. -/
def Obligations.CmpWritesTheOrder : Prop :=
  ∀ (s : State) (w : Width) (sg : Signedness) (ra rb : RegNum), s.fault = 0 →
    ∃ t, exec (.cmp w sg ra rb) s = .next t ∧
      (s.value sg w ra < s.value sg w rb → t.x = 0xFFFF) ∧
      (s.value sg w ra = s.value sg w rb → t.x = 0x0000) ∧
      (s.value sg w rb < s.value sg w ra → t.x = 0x0001) ∧
      (t.x = 0x0000 ↔ imageOf w (s.reg ra) = imageOf w (s.reg rb)) ∧
      OnlyScalar s t

/-- 45_compare.md R124, R125 (a), (b): X is one of three codes, the six operators read from it are those of the values, and
the two orders disagree, with opposite nonzero codes, exactly when the sign bits differ. -/
def Obligations.SignedAndUnsignedOrdersDisagreeOnSignCrossing : Prop :=
  ∀ (s : State) (w : Width) (ra rb : RegNum), s.fault = 0 →
    ∃ t u, exec (.cmp w .unsigned ra rb) s = .next t ∧ exec (.cmp w .signed ra rb) s = .next u ∧
      (t.x = 0xFFFF ∨ t.x = 0x0000 ∨ t.x = 0x0001) ∧
      (∀ r : Relation, r.readX t.x = r.holds (s.value .unsigned w ra) (s.value .unsigned w rb) ∧
        r.readX u.x = r.holds (s.value .signed w ra) (s.value .signed w rb)) ∧
      (signBit w (s.reg ra) = signBit w (s.reg rb) → t.x = u.x) ∧
      (signBit w (s.reg ra) ≠ signBit w (s.reg rb) →
        (t.x = 0x0001 ∧ u.x = 0xFFFF) ∨ (t.x = 0xFFFF ∧ u.x = 0x0001))

/-! ## HSB, BSET, BCLR, BTST -/

/-- 46_bit_utilities.md R130: the largest set index below W, or -1 for an all-zero value; bits above the width are not
seen. -/
def Obligations.HsbWritesTheHighestSetIndex : Prop :=
  ∀ (s : State) (w : Width) (sg : Signedness) (ra : RegNum), s.fault = 0 →
    ∃ t, exec (.hsb w sg ra) s = .next t ∧ OnlyScalar s t ∧
      (s.unsigned w ra = 0 → t.x = 0xFFFF) ∧
      (s.unsigned w ra ≠ 0 → t.x.toNat < w.bits ∧ (s.reg ra).getLsbD t.x.toNat = true ∧
        ∀ i, t.x.toNat < i → i < w.bits → (s.reg ra).getLsbD i = false)

/-- 46_bit_utilities.md R131: one bit set, the other 1023 kept, those above the width included. -/
def Obligations.BsetSetsOneBit : Prop :=
  ∀ (s : State) (w : Width) (sg : Signedness) (rd : RegNum) (i : Imm16), s.fault = 0 →
    (i.toNat < w.bits → ∃ t, exec (.bset w sg rd i) s = .next t ∧
      (∀ j, j < 1024 → (t.reg rd).getLsbD j = (decide (j = i.toNat) || (s.reg rd).getLsbD j)) ∧
      (∀ k, k ≠ i.toNat / 8 → byteOf (t.reg rd) k = byteOf (s.reg rd) k) ∧
      OnlyRegister s t rd) ∧
    (w.bits ≤ i.toNat → ∃ t, exec (.bset w sg rd i) s = .next t ∧ FaultRecorded s t 2 (encode (.bset w sg rd i)))

/-- 46_bit_utilities.md R132: one bit cleared, the other 1023 kept. -/
def Obligations.BclrClearsOneBit : Prop :=
  ∀ (s : State) (w : Width) (sg : Signedness) (rd : RegNum) (i : Imm16), s.fault = 0 →
    (i.toNat < w.bits → ∃ t, exec (.bclr w sg rd i) s = .next t ∧
      (∀ j, j < 1024 → (t.reg rd).getLsbD j = (decide (j ≠ i.toNat) && (s.reg rd).getLsbD j)) ∧
      (∀ k, k ≠ i.toNat / 8 → byteOf (t.reg rd) k = byteOf (s.reg rd) k) ∧
      OnlyRegister s t rd) ∧
    (w.bits ≤ i.toNat → ∃ t, exec (.bclr w sg rd i) s = .next t ∧ FaultRecorded s t 2 (encode (.bclr w sg rd i)))

/-- 46_bit_utilities.md R133, R134: the bit at `i mod 8` of byte `i div 8`, to X. -/
def Obligations.BtstReadsOneBit : Prop :=
  ∀ (s : State) (w : Width) (sg : Signedness) (ra : RegNum) (i : Imm16), s.fault = 0 →
    (i.toNat < w.bits → ∃ t, exec (.btst w sg ra i) s = .next t ∧
      t.x = (if (byteOf (s.reg ra) (i.toNat / 8)).getLsbD (i.toNat % 8) = true then 0x0001 else 0x0000) ∧
      OnlyScalar s t) ∧
    (w.bits ≤ i.toNat → ∃ t, exec (.btst w sg ra i) s = .next t ∧ FaultRecorded s t 2 (encode (.btst w sg ra i)))

/-- 46_bit_utilities.md R135 (a) and 44_shift.md R114 (a), the source's duality: after one is shifted left by `i`, BTST of
`i` gives 1 and HSB gives `i`, at every width and for every `i` below it. -/
def Obligations.ShiftedOneHasItsBitSetAndHighest : Prop :=
  ∀ (s t u v : State) (w : Width) (sg : Signedness) (a b : RegNum) (i : Imm16), s.fault = 0 → i.toNat < w.bits →
    s.unsigned w a = 1 → exec (.shl w sg b a i) s = .next t →
    exec (.btst w sg b i) t = .next u → exec (.hsb w sg b) t = .next v →
    u.x = 1 ∧ v.x = i

/-- 46_bit_utilities.md R135 (b) to (d): BTST after BSET and BCLR, BTST of other indices, HSB of a single bit, and HSB of a
negative value. -/
def Obligations.BitCommandsAgreeWithEachOther : Prop :=
  (∀ (s t u v : State) (w : Width) (sg : Signedness) (a : RegNum) (i j : Imm16), s.fault = 0 →
    i.toNat < w.bits → j.toNat < w.bits →
    (exec (.bset w sg a i) s = .next t → exec (.btst w sg a j) t = .next u → exec (.btst w sg a j) s = .next v →
      u.x = if j = i then 1 else v.x) ∧
    (exec (.bclr w sg a i) s = .next t → exec (.btst w sg a j) t = .next u → exec (.btst w sg a j) s = .next v →
      u.x = if j = i then 0 else v.x) ∧
    (s.reg a = 0 → exec (.bset w sg a i) s = .next t → exec (.hsb w sg a) t = .next u → u.x = i)) ∧
  (∀ (s t : State) (w : Width) (sg : Signedness) (a : RegNum), s.fault = 0 → exec (.hsb w sg a) s = .next t →
    (t.x.toNat = w.bits - 1 ↔ s.value .signed w a < 0))

/-! ## What every command leaves alone -/

/-- 00_scope.md R5, 10_state.md R16: a delivered command changes no wide register but its destinations, no operand byte of
another register, X only if it is CMP, HSB or BTST, and nothing of the host's. -/
def Obligations.CommandsChangeOnlyTheirDestinations : Prop :=
  ∀ (i : Instr) (s t : State), exec i s = .next t →
    (∀ n, n ∉ i.destinations → t.reg n = s.reg n) ∧
    (∀ off, off < 0x400 → (∀ n ∈ i.destinations, off / 0x80 ≠ n.val) → operandByte t off = operandByte s off) ∧
    (i.writesScalar = false → t.x = s.x) ∧
    t.pending = s.pending ∧ t.replies = s.replies

/-- 10_state.md R12, 46_bit_utilities.md R131, R132: a register a command wrote holds nothing above its result; BSET and BCLR
alone keep what stands above, and change no bit of their register but the one their index names. -/
def Obligations.ResultsAreZeroAboveTheirWidth : Prop :=
  ∀ (i : Instr) (s t : State), exec i s = .next t → ∀ n, t.reg n ≠ s.reg n →
    (i.inPlace = false → (t.reg n).toNat < 2 ^ i.resultBits) ∧
    (∀ (w : Width) (sg : Signedness) (rd : RegNum) (k : Imm16), i = .bset w sg rd k ∨ i = .bclr w sg rd k →
      n = rd ∧ ∀ j, j < 1024 → j ≠ k.toNat → (t.reg rd).getLsbD j = (s.reg rd).getLsbD j)

/-- 10_state.md R11, 00_scope.md R5: two running blocks whose sources agree in the low W bits get the same results, the same
X where the command writes it, and the same fault, whatever else they hold. -/
def Obligations.ResultsDependOnTheLowBitsOfTheSourcesAlone : Prop :=
  ∀ (i : Instr) (s s' t t' : State), s.fault = 0 → s'.fault = 0 → s.finfo = s'.finfo →
    (∀ w, i.width = some w → ∀ n ∈ i.sources, s.unsigned w n = s'.unsigned w n) →
    exec i s = .next t → exec i s' = .next t' →
    t.fault = t'.fault ∧ t.finfo = t'.finfo ∧
    (t.fault = 0 → i.inPlace = false → ∀ n ∈ i.destinations, t.reg n = t'.reg n) ∧
    (t.fault = 0 → i.inPlace = true → ∀ w, i.width = some w → ∀ n ∈ i.destinations,
      t.unsigned w n = t'.unsigned w n) ∧
    (t.fault = 0 → i.writesScalar = true → t.x = t'.x)

/-- 70_reset_and_hazards.md R186: every command, and every word, has a successor state; none stops the machine. -/
def Obligations.EveryCommandHasASuccessor : Prop :=
  (∀ (i : Instr) (s : State), ∃ t, exec i s = .next t) ∧
  (∀ (w : Word) (s : State), ∃ t, deliver (cmdWrite w) s = .next t)

/-! ## Faults -/

/-- 60_exceptions.md R160, R170: in a running block, which words record which cause. -/
def Obligations.FaultCausesAreThoseOfTheTable : Prop :=
  ∀ (w : Word) (s t : State), s.fault = 0 → deliver (cmdWrite w) s = .next t →
    (t.fault = 3 ↔ isIllegal w = true) ∧
    (t.fault = 2 ↔ isIndexOutOfRange w = true) ∧
    (t.fault = 1 ↔ ∃ wd sg rd re ra rb,
      (decode w = .ok (.divmod wd sg rd re ra rb) ∨ decode w = .ok (.mod wd sg rd ra rb)) ∧
        s.unsigned wd rb = 0) ∧
    (t.fault = 0 ∨ t.fault = 1 ∨ t.fault = 2 ∨ t.fault = 3)

/-- 60_exceptions.md R166: a fault is precise: the state is the state before plus FAULT and FINFO, and FINFO is the command
word. -/
def Obligations.FaultsArePrecise : Prop :=
  ∀ (w : Word) (s t : State), s.fault = 0 → deliver (cmdWrite w) s = .next t → t.fault ≠ 0 →
    FaultRecorded s t t.fault w

/-- 60_exceptions.md R167: a faulted block discards every command word, and keeps its first fault until the host
acknowledges a DivisionByZero or the platform resets it. -/
def Obligations.FaultedBlockDiscardsCommandsAndKeepsItsFault : Prop :=
  (∀ s : State, s.fault ≠ 0 →
    (∀ i : Instr, exec i s = .next s) ∧ (∀ w : Word, deliver (cmdWrite w) s = .next s)) ∧
  (∀ s t : State, s.fault ≠ 0 → step s = .next t →
    (t.fault = s.fault ∧ t.finfo = s.finfo) ∨
    (∃ v rest, s.pending = .hostWrite 0x408 4 v :: rest ∧ s.fault = 1 ∧ t.fault = 0 ∧ t.finfo = 0 ∧
      (∀ n, t.reg n = s.reg n) ∧ t.x = s.x) ∨
    (∃ rest, s.pending = .reset :: rest ∧ t.fault = 0 ∧ t.finfo = 0))

/-- 20_memory.md R39 and 60_exceptions.md R168: reading FAULT, and the acknowledge, a write of any value, which clears
DivisionByZero alone and after which the next command is executed. -/
def Obligations.AcknowledgeClearsDivisionByZeroAlone : Prop :=
  (∀ s : State, deliver (.hostRead 0x408 4) s =
    .next { s with replies := s.replies ++ [.word (s.fault.setWidth 32)] }) ∧
  (∀ (s : State) (v : Nat), v < 2 ^ 32 → s.fault = 1 →
    deliver (.hostWrite 0x408 4 v) s = .next { s with fault := 0, finfo := 0 } ∧
    ∀ (w : Word) (i : Instr), decode w = .ok i →
      run [.hostWrite 0x408 4 v, cmdWrite w] s = exec i { s with fault := 0, finfo := 0 }) ∧
  (∀ (s : State) (v : Nat), v < 2 ^ 32 → s.fault ≠ 1 → deliver (.hostWrite 0x408 4 v) s = .next s)

/-- The invariant `State.inv`, what FAULT, FINFO and X may hold, is true after reset. -/
def Obligations.FaultRecordIsTrueAtReset : Prop := State.reset.inv = true

/-- 10_state.md R16, R17, R18, 60_exceptions.md R160, R166: every step keeps it, from every state that has it: FINFO is 0
when no fault is recorded and otherwise a word that raises the recorded cause, the codes 4 to 7 do not occur, and X holds
0 to 1023 or -1. -/
def Obligations.StepKeepsTheFaultRecordTrue : Prop :=
  ∀ s t : State, s.inv = true → step s = .next t → t.inv = true

/-! ## The reference limb algorithms give the commands' bytes -/

/-- 41_add_sub_neg.md R83, R84, R85. -/
def Obligations.RippleAlgorithmsGiveAddSubNeg : Prop :=
  ∀ (s t u v : State) (w : Width) (sg : Signedness) (rd ra rb : RegNum), s.fault = 0 →
    exec (.add w sg rd ra rb) s = .next t → exec (.sub w sg rd ra rb) s = .next u →
    exec (.neg w sg rd ra) s = .next v →
    imageOf w (t.reg rd) = rippleAdd 0 (imageOf w (s.reg ra)) (imageOf w (s.reg rb)) ∧
    imageOf w (u.reg rd) = rippleSub 0 (imageOf w (s.reg ra)) (imageOf w (s.reg rb)) ∧
    imageOf w (v.reg rd) = complementAddCarry 1 (imageOf w (s.reg ra))

/-- 42_multiply.md R92, R93. -/
def Obligations.SchoolbookAlgorithmGivesTheProducts : Prop :=
  (∀ (s t : State) (w : Width) (sg : Signedness) (rd ra rb : RegNum), s.fault = 0 →
    exec (.mull w sg rd ra rb) s = .next t →
    imageOf w (t.reg rd) = schoolbook w.bytes (imageOf w (s.reg ra)) (imageOf w (s.reg rb))) ∧
  (∀ (s t u : State) (w w2 : Width) (rd ra rb : RegNum), s.fault = 0 → w.double = some w2 →
    exec (.mulf w .unsigned rd ra rb) s = .next t → exec (.mulf w .signed rd ra rb) s = .next u →
    imageOf w2 (t.reg rd) = schoolbook w2.bytes (imageOf w (s.reg ra)) (imageOf w (s.reg rb)) ∧
    imageOf w2 (u.reg rd) = schoolbookSigned (imageOf w (s.reg ra)) (imageOf w (s.reg rb)))

/-- 43_divide.md R105, R106. -/
def Obligations.RestoringDivisionGivesQuotientAndRemainder : Prop :=
  ∀ (s t u : State) (w : Width) (rd re ra rb : RegNum), s.fault = 0 → s.unsigned w rb ≠ 0 → re ≠ rd →
    exec (.divmod w .unsigned rd re ra rb) s = .next t → exec (.divmod w .signed rd re ra rb) s = .next u →
    (imageOf w (t.reg rd), imageOf w (t.reg re)) = restoringDivide (imageOf w (s.reg ra)) (imageOf w (s.reg rb)) ∧
    (imageOf w (u.reg rd), imageOf w (u.reg re)) =
      restoringDivideSigned (imageOf w (s.reg ra)) (imageOf w (s.reg rb))

/-- 44_shift.md R113. -/
def Obligations.LimbShifterGivesTheShifts : Prop :=
  ∀ (s t u : State) (w : Width) (sg : Signedness) (rd ra : RegNum) (n : Imm16), s.fault = 0 →
    exec (.shl w sg rd ra n) s = .next t → exec (.shr w sg rd ra n) s = .next u →
    imageOf w (t.reg rd) = limbShiftLeft (imageOf w (s.reg ra)) n.toNat ∧
    imageOf w (u.reg rd) =
      limbShiftRight (fillByte sg (imageOf w (s.reg ra))) (imageOf w (s.reg ra)) n.toNat

/-- 45_compare.md R121, R122 and the scan of 46_bit_utilities.md R130. -/
def Obligations.ByteScansGiveTheOrdersAndTheHighestBit : Prop :=
  ∀ (s t u v : State) (w : Width) (sg : Signedness) (ra rb : RegNum), s.fault = 0 →
    exec (.cmp w .unsigned ra rb) s = .next t → exec (.cmp w .signed ra rb) s = .next u →
    exec (.hsb w sg ra) s = .next v →
    t.x = orderCode (limbCompareUnsigned (imageOf w (s.reg ra)) (imageOf w (s.reg rb))) ∧
    u.x = orderCode (limbCompareSigned (imageOf w (s.reg ra)) (imageOf w (s.reg rb))) ∧
    v.x = indexCode (scanHighestBit (imageOf w (s.reg ra)) w.bytes)

/-! ## The host-side functions -/

/-- 40_storage_construction.md R72, R75: a native integer is stored as its two's-complement image, sign-extended for a
signed type and zero-padded for an unsigned one, and read back as itself. The parameters are any the spec allows. -/
def Obligations.NativeIntegersAreStoredAndReadBack : Prop :=
  ∀ (p : Config.HostParams) (sg : Signedness) (w : Width) (z : Int), 1 ≤ p.nativeBytes → p.nativeBytes < 32 →
    -2 ^ (8 * p.nativeBytes - 1) ≤ z → z < 2 ^ (8 * p.nativeBytes - 1) →
    ∃ img, fromNative p sg w z = .ok img ∧ img.length = w.bytes ∧ toNativeInt p img = z ∧
      (sg = .signed ∨ 0 ≤ z → leValue img = enc w.bits z) ∧
      (sg = .unsigned → z < 0 → (leValue img : Int) = z + 2 ^ (8 * p.nativeBytes))

/-- 40_storage_construction.md R73: the conversion between widths is truncation or zero-padding of the image, and it is what
MOV does. -/
def Obligations.FromBytesIsTruncationOrZeroPaddingAndIsMov : Prop :=
  (∀ (w : Width) (src : List Byte), (fromBytes w src).length = w.bytes ∧
    leValue (fromBytes w src) = leValue src % 2 ^ w.bits) ∧
  (∀ (s t : State) (w : Width) (rd ra : RegNum), s.fault = 0 → exec (.mov w rd ra) s = .next t →
    imageOf w (t.reg rd) = fromBytes w (imageOf .w1024 (s.reg ra)))

/-- 47_text_formatting.md R141: the text is the hexadecimal numeral of the image's unsigned value, without a leading zero
digit unless it is the single digit of zero. -/
def Obligations.HexTextIsTheShortestNumeral : Prop :=
  ∀ (p : Config.HostParams) (img : List Byte),
    hexNumeral (toHexString p img) = leValue img ∧
    (∀ c ∈ toHexString p img, (digitValue c).isSome = true) ∧
    (leValue img = 0 → toHexString p img = ['0']) ∧
    (leValue img ≠ 0 → (toHexString p img).head? ≠ some '0')

/-- 47_text_formatting.md R142, R144: a text of hex digits of either case is accepted and gives its numeral modulo `2^W`;
any other text fails with InvalidHexDigit and no image. -/
def Obligations.HexTextIsParsedOrRejected : Prop :=
  ∀ (w : Width) (text : List Char),
    ((∀ c ∈ text, (digitValue c).isSome = true) → ∃ img, fromHex w text = .ok img ∧ img.length = w.bytes ∧
      leValue img = hexNumeral text % 2 ^ w.bits) ∧
    (¬ (∀ c ∈ text, (digitValue c).isSome = true) → fromHex w text = .error .invalidHexDigit)

/-- 47_text_formatting.md R146: the round trip, for every image of a width, negative signed ones included. -/
def Obligations.HexTextRoundTrip : Prop :=
  ∀ (p : Config.HostParams) (w : Width) (img : List Byte), img.length = w.bytes →
    fromHex w (toHexString p img) = .ok img
end

