-- ==== Sys2Proof/Laws/Decode.lean ====
section
/-! SUPPORT. The fields of the words the encoder builds, and what the decoder's tests say about a word, as arithmetic. -/

namespace Sys2Proof

theorem field_eq (w : Word) (lo len : Nat) : field w lo len = w.toNat / 2 ^ lo % 2 ^ len := by
  simp [field, BitVec.extractLsb'_toNat, Nat.shiftRight_eq_div_pow]

theorem val_regField (w : Word) (lo : Nat) : (regField w lo).val = w.toNat / 2 ^ lo % 8 := by
  simp [regField, Nat.shiftRight_eq_div_pow]

theorem toNat_immField (w : Word) : (immField w).toNat = w.toNat % 65536 := by
  simp [immField, BitVec.extractLsb'_toNat]

/-! ## The tables are inverse to each other -/

theorem Operation.code_le (o : Operation) : o.code ≤ 14 := by cases o <;> decide

@[simp] theorem Operation.ofCode_code (o : Operation) : Operation.ofCode o.code = some o := by cases o <;> rfl

theorem Operation.code_of_ofCode {n : Nat} {o : Operation} (h : Operation.ofCode n = some o) : n = o.code := by
  unfold Operation.ofCode at h
  split at h <;> first | (cases h; rfl) | cases h

theorem Operation.ofCode_eq_none {n : Nat} : Operation.ofCode n = none ↔ 14 < n := by
  constructor
  · intro h
    by_contra hn
    have : n ≤ 14 := by omega
    interval_cases n <;> cases h
  · intro h
    unfold Operation.ofCode
    split <;> first | omega | rfl

theorem Width.sel_le (w : Width) : w.sel ≤ 2 := by cases w <;> decide

@[simp] theorem Width.ofSel_sel (w : Width) : Width.ofSel w.sel = some w := by cases w <;> rfl

theorem Width.sel_of_ofSel {n : Nat} {w : Width} (h : Width.ofSel n = some w) : n = w.sel := by
  unfold Width.ofSel at h
  split at h <;> first | (cases h; rfl) | cases h

theorem Signedness.sgn_le (sg : Signedness) : sg.sgn ≤ 1 := by cases sg <;> decide

@[simp] theorem Signedness.ofSgn_sgn (sg : Signedness) : Signedness.ofSgn sg.sgn = sg := by cases sg <;> rfl

theorem Signedness.sgn_ofSgn {n : Nat} (h : n < 2) : (Signedness.ofSgn n).sgn = n := by
  interval_cases n <;> rfl

/-! ## Words as numbers -/

theorem toNat_regWord (o : Operation) (wd : Width) (sg : Signedness) (rd ra rb re : RegNum) :
    (regWord o wd sg rd ra rb re).toNat = o.code * 2 ^ 27 + wd.sel * 2 ^ 25 + sg.sgn * 2 ^ 24 + rd.val * 2 ^ 21 +
      ra.val * 2 ^ 18 + rb.val * 2 ^ 15 + re.val * 2 ^ 12 := by
  have h1 := o.code_le; have h2 := wd.sel_le; have h3 := sg.sgn_le
  have h4 := rd.isLt; have h5 := ra.isLt; have h6 := rb.isLt; have h7 := re.isLt
  rw [regWord, BitVec.toNat_ofNat, Nat.mod_eq_of_lt]
  omega

theorem toNat_immWord (o : Operation) (wd : Width) (sg : Signedness) (rd ra : RegNum) (imm : Imm16) :
    (immWord o wd sg rd ra imm).toNat = o.code * 2 ^ 27 + wd.sel * 2 ^ 25 + sg.sgn * 2 ^ 24 + rd.val * 2 ^ 21 +
      ra.val * 2 ^ 18 + imm.toNat := by
  have h1 := o.code_le; have h2 := wd.sel_le; have h3 := sg.sgn_le
  have h4 := rd.isLt; have h5 := ra.isLt; have h6 := imm.isLt
  rw [immWord, BitVec.toNat_ofNat, Nat.mod_eq_of_lt]
  omega

/-- The operation field of a register-format word. -/
theorem opField_regWord (o : Operation) (wd : Width) (sg : Signedness) (rd ra rb re : RegNum) :
    field (regWord o wd sg rd ra rb re) 27 5 = o.code := by
  have h1 := o.code_le; have h2 := wd.sel_le; have h3 := sg.sgn_le
  rw [field_eq, toNat_regWord]
  omega

/-- The operation field of an immediate-format word. -/
theorem opField_immWord (o : Operation) (wd : Width) (sg : Signedness) (rd ra : RegNum) (imm : Imm16) :
    field (immWord o wd sg rd ra imm) 27 5 = o.code := by
  have h1 := o.code_le; have h2 := wd.sel_le; have h3 := sg.sgn_le
  rw [field_eq, toNat_immWord]
  omega

/-- The other fields of a register-format word are the ones it was built from. -/
theorem fields_regWord (o : Operation) (wd : Width) (sg : Signedness) (rd ra rb re : RegNum) :
    field (regWord o wd sg rd ra rb re) 25 2 = wd.sel ∧ field (regWord o wd sg rd ra rb re) 24 1 = sg.sgn ∧
    regField (regWord o wd sg rd ra rb re) 21 = rd ∧ regField (regWord o wd sg rd ra rb re) 18 = ra ∧
    regField (regWord o wd sg rd ra rb re) 15 = rb ∧ regField (regWord o wd sg rd ra rb re) 12 = re := by
  have h1 := o.code_le; have h2 := wd.sel_le; have h3 := sg.sgn_le
  simp only [Fin.ext_iff, val_regField, field_eq, toNat_regWord]
  omega

/-- The other fields of an immediate-format word are the ones it was built from. -/
theorem fields_immWord (o : Operation) (wd : Width) (sg : Signedness) (rd ra : RegNum) (imm : Imm16) :
    field (immWord o wd sg rd ra imm) 25 2 = wd.sel ∧ field (immWord o wd sg rd ra imm) 24 1 = sg.sgn ∧
    regField (immWord o wd sg rd ra imm) 21 = rd ∧ regField (immWord o wd sg rd ra imm) 18 = ra ∧
    immField (immWord o wd sg rd ra imm) = imm := by
  have h1 := o.code_le; have h2 := wd.sel_le; have h3 := sg.sgn_le; have h4 := imm.isLt
  simp only [Fin.ext_iff, val_regField, field_eq, toNat_immWord, BitVec.toNat_eq, toNat_immField]
  omega

/-- The must-be-zero test, on the word as a number. -/
theorem zeroBitsClear_iff (f : Format) (w : Word) :
    zeroBitsClear f w = true ↔ ∀ r ∈ f.mustBeZero, w.toNat / 2 ^ r.1 % 2 ^ r.2 = 0 := by
  simp [zeroBitsClear, field_eq]

/-- What the decoder needs to know of a word to accept it: the operation, the width, the clear must-be-zero bits and the
full-multiply width. -/
theorem decode_eq_ok {w : Word} {o : Operation} {wd : Width} (ho : field w 27 5 = o.code) (hn : o ≠ .nop)
    (hw : field w 25 2 = wd.sel) (hz : zeroBitsClear o.format w = true) (hm : ¬ (o = .mulf ∧ wd = .w1024)) :
    decode w = .ok (withOperands o wd (.ofSgn (field w 24 1)) w) := by
  unfold decode
  rw [ho, Operation.ofCode_code, hw, Width.ofSel_sel]
  cases o <;> simp_all

theorem decode_regWord {o : Operation} (hn : o ≠ .nop) {wd : Width} {sg : Signedness} {rd ra rb re : RegNum}
    (hm : ¬ (o = .mulf ∧ wd = .w1024)) (hz : zeroBitsClear o.format (regWord o wd sg rd ra rb re) = true) :
    decode (regWord o wd sg rd ra rb re) = .ok (withOperands o wd sg (regWord o wd sg rd ra rb re)) := by
  have h := fields_regWord o wd sg rd ra rb re
  rw [decode_eq_ok (opField_regWord ..) hn h.1 hz hm, h.2.1, Signedness.ofSgn_sgn]

theorem decode_immWord {o : Operation} (hn : o ≠ .nop) {wd : Width} {sg : Signedness} {rd ra : RegNum} {imm : Imm16}
    (hm : ¬ (o = .mulf ∧ wd = .w1024)) (hz : zeroBitsClear o.format (immWord o wd sg rd ra imm) = true) :
    decode (immWord o wd sg rd ra imm) = .ok (withOperands o wd sg (immWord o wd sg rd ra imm)) := by
  have h := fields_immWord o wd sg rd ra imm
  rw [decode_eq_ok (opField_immWord ..) hn h.1 hz hm, h.2.1, Signedness.ofSgn_sgn]

/-- Everything an accepted word satisfies. -/
theorem decode_ok_cases {w : Word} {i : Instr} (h : decode w = .ok i) :
    (w = 0 ∧ i = .nop) ∨
    ∃ o wd, o ≠ .nop ∧ field w 27 5 = o.code ∧ field w 25 2 = wd.sel ∧ zeroBitsClear o.format w = true ∧
      ¬ (o = .mulf ∧ wd = .w1024) ∧ i = withOperands o wd (.ofSgn (field w 24 1)) w := by
  unfold decode at h
  split at h
  · cases h
  · split at h
    · cases h; exact .inl ⟨‹_›, rfl⟩
    · cases h
  · rename_i o hne ho
    split at h
    · cases h
    · rename_i wd hw
      split at h
      · split at h
        · cases h
        · cases h
          exact .inr ⟨o, wd, hne, Operation.code_of_ofCode ho, Width.sel_of_ofSel hw,
            ‹_›, ‹_›, rfl⟩
      · cases h

end Sys2Proof
end

