-- ==== Sys2Proof/Laws/Operands.lean ====
section
/-! SUPPORT. One lemma for each operand and result function: what it gives as a number or bit by bit. -/

namespace Sys2Proof

@[simp] theorem Width.eight_bytes (w : Width) : 8 * w.bytes = w.bits := by cases w <;> rfl

theorem Width.bits_pos (w : Width) : 0 < w.bits := by cases w <;> decide

theorem Width.bits_le (w : Width) : w.bits ≤ 1024 := by cases w <;> decide

theorem Width.two_pow_bits (w : Width) : 2 ^ w.bits = 2 * 2 ^ (w.bits - 1) := by
  rw [← pow_succ', Nat.sub_add_cancel w.bits_pos]

theorem Width.two_pow_bits_int (w : Width) : (2 : Int) ^ w.bits = 2 * 2 ^ (w.bits - 1) := by
  exact_mod_cast w.two_pow_bits

namespace Machine

/-! ## enc and the register image of a result -/

theorem enc_cast (m : Nat) (z : Int) : (enc m z : Int) = z % 2 ^ m := by
  have : (0 : Int) < 2 ^ m := by positivity
  simp only [enc, Int.toNat_of_nonneg (Int.emod_nonneg z this.ne')]

theorem enc_lt (m : Nat) (z : Int) : enc m z < 2 ^ m := by
  have h : (0 : Int) < 2 ^ m := by positivity
  have := Int.emod_lt_of_pos z h
  rw [← enc_cast] at this
  exact_mod_cast this

theorem enc_eq_iff (m : Nat) (y z : Int) : enc m y = enc m z ↔ y % 2 ^ m = z % 2 ^ m := by
  rw [← enc_cast, ← enc_cast]; exact_mod_cast Iff.rfl

/-- `enc` depends on its argument modulo `2^M` alone. -/
theorem enc_congr {m : Nat} {y z : Int} (h : (2 : Int) ^ m ∣ y - z) : enc m y = enc m z :=
  (enc_eq_iff m y z).2 (Int.ModEq.symm ((Int.modEq_iff_dvd).2 h))

@[simp] theorem enc_natCast (m n : Nat) : enc m (n : Int) = n % 2 ^ m := by
  have := enc_cast m n
  exact_mod_cast this

set_option exponentiation.threshold 1024 in
theorem toNat_wideOf {m : Nat} (h : m ≤ 1024) (z : Int) : (wideOf m z).toNat = enc m z := by
  rw [wideOf, BitVec.toNat_ofNat]
  refine Nat.mod_eq_of_lt (lt_of_lt_of_le (enc_lt m z) ?_)
  gcongr
  decide

@[simp] theorem toNat_wideOf_bits (w : Width) (z : Int) : (wideOf w.bits z).toNat = enc w.bits z :=
  toNat_wideOf w.bits_le z

/-- The bits of a result above its width are zero (10_state.md R12). -/
theorem getLsbD_wideOf_of_le {m i : Nat} (h : m ≤ 1024) (hi : m ≤ i) (z : Int) :
    (wideOf m z).getLsbD i = false := by
  rw [BitVec.getLsbD, toNat_wideOf h]
  exact Nat.testBit_lt_two_pow (lt_of_lt_of_le (enc_lt m z) (Nat.pow_le_pow_right (by decide) hi))

/-! ## Values -/

theorem unsignedOf_lt (w : Width) (r : Wide) : unsignedOf w r < 2 ^ w.bits :=
  Nat.mod_lt _ (by positivity)

@[simp] theorem unsignedOf_wideOf (w : Width) (z : Int) : unsignedOf w (wideOf w.bits z) = enc w.bits z := by
  rw [unsignedOf, toNat_wideOf_bits, Nat.mod_eq_of_lt (enc_lt _ _)]

theorem signBit_eq (w : Width) (r : Wide) : signBit w r = decide (2 ^ (w.bits - 1) ≤ unsignedOf w r) := by
  have hw : w.bits = (w.bits - 1) + 1 := (Nat.succ_pred_eq_of_pos w.bits_pos).symm
  have hlt := unsignedOf_lt w r
  have h1 : r.getLsbD (w.bits - 1) = (unsignedOf w r).testBit (w.bits - 1) := by
    rw [unsignedOf, Nat.testBit_mod_two_pow, BitVec.getLsbD]
    have := w.bits_pos
    simp; omega
  rw [signBit, h1]
  rw [hw] at hlt
  rw [Nat.testBit_eq_decide_div_mod_eq]
  congr 1
  rw [pow_succ] at hlt
  generalize 2 ^ (w.bits - 1) = p at *
  apply propext
  by_cases hp : p ≤ unsignedOf w r
  · have h3 : unsignedOf w r / p = 1 := Nat.div_eq_of_lt_le (by omega) (by omega)
    simp [h3, hp]
  · have h3 : unsignedOf w r / p = 0 := Nat.div_eq_of_lt (by omega)
    simp [h3, hp]

/-- The signed value, by the sign of the unsigned one. -/
theorem signedOf_eq (w : Width) (r : Wide) :
    signedOf w r = if unsignedOf w r < 2 ^ (w.bits - 1) then (unsignedOf w r : Int)
      else (unsignedOf w r : Int) - 2 ^ w.bits := by
  rw [signedOf, signBit_eq]
  split
  · rename_i h; simp [Nat.not_le.2 h]
  · rename_i h; simp [Nat.not_lt.1 h]

/-- A value and the unsigned value agree modulo `2^W` (41_add_sub_neg.md R81). -/
theorem dvd_valueOf_sub (sg : Signedness) (w : Width) (r : Wide) :
    (2 : Int) ^ w.bits ∣ valueOf sg w r - unsignedOf w r := by
  cases sg
  · simp [valueOf]
  · simp [valueOf, signedOf]

@[simp] theorem enc_valueOf (sg : Signedness) (w : Width) (r : Wide) :
    enc w.bits (valueOf sg w r) = unsignedOf w r := by
  rw [enc_congr (dvd_valueOf_sub sg w r), enc_natCast, Nat.mod_eq_of_lt (unsignedOf_lt w r)]

/-- A value is zero exactly when the low W bits are (43_divide.md R103). -/
theorem valueOf_eq_zero_iff (sg : Signedness) (w : Width) (r : Wide) :
    valueOf sg w r = 0 ↔ unsignedOf w r = 0 := by
  constructor
  · intro h
    have := enc_valueOf sg w r
    rw [h] at this
    simpa [enc] using this.symm
  · intro h
    cases sg
    · simp [valueOf, h]
    · have : 0 < 2 ^ (w.bits - 1) := by positivity
      simp [valueOf, signedOf_eq, h, this]

/-- Sums, differences and products of values agree with those of the unsigned values modulo `2^W`
(41_add_sub_neg.md R81, 42_multiply.md R90). -/
theorem enc_value_add (w : Width) (sg : Signedness) (x y : Wide) :
    enc w.bits (valueOf sg w x + valueOf sg w y) = enc w.bits ((unsignedOf w x : Int) + unsignedOf w y) := by
  apply enc_congr
  have h := dvd_add (dvd_valueOf_sub sg w x) (dvd_valueOf_sub sg w y)
  rwa [show valueOf sg w x + valueOf sg w y - ((unsignedOf w x : Int) + unsignedOf w y) =
    (valueOf sg w x - unsignedOf w x) + (valueOf sg w y - unsignedOf w y) by ring]

theorem enc_value_sub (w : Width) (sg : Signedness) (x y : Wide) :
    enc w.bits (valueOf sg w x - valueOf sg w y) = enc w.bits ((unsignedOf w x : Int) - unsignedOf w y) := by
  apply enc_congr
  have h := dvd_sub (dvd_valueOf_sub sg w x) (dvd_valueOf_sub sg w y)
  rwa [show valueOf sg w x - valueOf sg w y - ((unsignedOf w x : Int) - unsignedOf w y) =
    (valueOf sg w x - unsignedOf w x) - (valueOf sg w y - unsignedOf w y) by ring]

theorem enc_value_mul (w : Width) (sg : Signedness) (x y : Wide) :
    enc w.bits (valueOf sg w x * valueOf sg w y) = enc w.bits ((unsignedOf w x : Int) * unsignedOf w y) := by
  apply enc_congr
  have h := dvd_add ((dvd_valueOf_sub sg w x).mul_right (valueOf sg w y))
    ((dvd_valueOf_sub sg w y).mul_left (unsignedOf w x : Int))
  rwa [show valueOf sg w x * valueOf sg w y - ((unsignedOf w x : Int) * unsignedOf w y) =
    (valueOf sg w x - unsignedOf w x) * valueOf sg w y + unsignedOf w x * (valueOf sg w y - unsignedOf w y) by ring]

/-- A signed value lies in the two's-complement range of its width. -/
theorem signedOf_range (w : Width) (r : Wide) : -2 ^ (w.bits - 1) ≤ signedOf w r ∧ signedOf w r < 2 ^ (w.bits - 1) := by
  have h := unsignedOf_lt w r
  have hw' := w.two_pow_bits_int
  rw [signedOf_eq]
  rw [w.two_pow_bits] at h
  have hc : ((2 ^ (w.bits - 1) : Nat) : Int) = 2 ^ (w.bits - 1) := by push_cast; rfl
  split <;> constructor <;> (try rw [hw']) <;> omega

/-- A value in that range is read back from its register image. -/
theorem signedOf_wideOf (w : Width) {z : Int} (h1 : -2 ^ (w.bits - 1) ≤ z) (h2 : z < 2 ^ (w.bits - 1)) :
    signedOf w (wideOf w.bits z) = z := by
  have r := signedOf_range w (wideOf w.bits z)
  have hd := dvd_valueOf_sub .signed w (wideOf w.bits z)
  simp only [valueOf, unsignedOf_wideOf, enc_cast] at hd
  have hz : (2 : Int) ^ w.bits ∣ z % 2 ^ w.bits - z := by
    rw [← Int.neg_sub, dvd_neg]; exact Int.dvd_self_sub_emod
  have hd2 : (2 : Int) ^ w.bits ∣ signedOf w (wideOf w.bits z) - z := by simpa using dvd_add hd hz
  rw [w.two_pow_bits_int] at hd2
  obtain ⟨k, hk⟩ := hd2
  have hp : (0 : Int) < 2 ^ (w.bits - 1) := by positivity
  have : k = 0 := by
    rcases lt_trichotomy k 0 with hk0 | hk0 | hk0
    · nlinarith
    · exact hk0
    · nlinarith
  subst this; omega

/-- The bits of an unsigned value are the register's low W bits. -/
theorem testBit_unsignedOf (w : Width) (r : Wide) (i : Nat) :
    (unsignedOf w r).testBit i = (decide (i < w.bits) && r.getLsbD i) := by
  rw [unsignedOf, Nat.testBit_mod_two_pow]; rfl

/-! ## Bytes and bits -/

theorem getLsbD_byteOf (r : Wide) (k j : Nat) :
    (byteOf r k).getLsbD j = (decide (j < 8) && r.getLsbD (8 * k + j)) := by
  simp [byteOf, BitVec.getLsbD_extractLsb']

theorem toNat_byteOf (r : Wide) (k : Nat) : (byteOf r k).toNat = r.toNat / 256 ^ k % 256 := by
  simp [byteOf, BitVec.extractLsb'_toNat, Nat.shiftRight_eq_div_pow, pow_mul]

theorem getLsbD_setByte (r : Wide) (k : Nat) (b : Byte) (i : Nat) (hi : i < 1024) :
    (setByte r k b).getLsbD i = if i / 8 = k then b.getLsbD (i % 8) else r.getLsbD i := by
  have h0 : ∀ j, (0xFF : Byte).getLsbD j = decide (j < 8) := by
    intro j
    by_cases hj : j < 8
    · interval_cases j <;> decide
    · rw [BitVec.getLsbD_of_ge _ _ (by omega)]; simp [hj]
  simp only [setByte, BitVec.getLsbD_or, BitVec.getLsbD_and, BitVec.getLsbD_not, BitVec.getLsbD_shiftLeft,
    BitVec.getLsbD_setWidth, h0]
  by_cases hk : i / 8 = k
  · have h1 : ¬ i < 8 * k := by omega
    have h2 : i - 8 * k = i % 8 := by omega
    have h3 : i % 8 < 1024 := by omega
    have h4 : i % 8 < 8 := by omega
    simp [hk, hi, h1, h2, h3, h4]
  · by_cases h1 : i < 8 * k
    · simp [hk, hi, h1]
    · have h2 : ¬ i - 8 * k < 8 := by omega
      have h3 : b.getLsbD (i - 8 * k) = false := BitVec.getLsbD_of_ge _ _ (by omega)
      simp [hk, hi, h1, h2, h3]

/-- A byte write sets that byte and keeps every other (20_memory.md R34). -/
theorem byteOf_setByte (r : Wide) (k j : Nat) (b : Byte) (hk : k < 128) :
    byteOf (setByte r k b) j = if j = k then b else byteOf r j := by
  apply BitVec.eq_of_getLsbD_eq
  intro i hi
  by_cases hj : 8 * j + i < 1024
  · have h1 : (8 * j + i) / 8 = j := by omega
    have h2 : (8 * j + i) % 8 = i := by omega
    simp only [getLsbD_byteOf, hi, getLsbD_setByte r k b _ hj, h1, h2, decide_true, Bool.true_and]
    split
    · rfl
    · rw [getLsbD_byteOf, decide_eq_true hi, Bool.true_and]
  · have h1 : ¬ j = k := by omega
    simp only [getLsbD_byteOf, h1, if_false]
    rw [BitVec.getLsbD_of_ge _ _ (by omega), BitVec.getLsbD_of_ge _ _ (by omega)]

/-- The bit of 46_bit_utilities.md R134 is the register's bit of that index. -/
@[simp] theorem bitOf_eq (r : Wide) (i : Nat) : bitOf r i = r.getLsbD i := by
  have h1 : i % 8 < 8 := by omega
  have h2 : 8 * (i / 8) + i % 8 = i := by omega
  rw [bitOf, getLsbD_byteOf, h2, decide_eq_true h1, Bool.true_and]

theorem getLsbD_one_shift (n j : Nat) (hn : n < 8) :
    ((1 : Byte) <<< n).getLsbD j = decide (j = n) := by
  by_cases hj : j < 8
  · interval_cases n <;> interval_cases j <;> decide
  · rw [BitVec.getLsbD_of_ge _ _ (by omega)]; simp; omega

theorem getLsbD_mask (n j : Nat) (hn : n < 8) (hj : j < 8) :
    ((0xFF : Byte) ^^^ ((1 : Byte) <<< n)).getLsbD j = decide (j ≠ n) := by
  interval_cases n <;> interval_cases j <;> decide

theorem getLsbD_withBitSet (r : Wide) (i j : Nat) (hj : j < 1024) :
    (withBitSet r i).getLsbD j = (decide (j = i) || r.getLsbD j) := by
  have h8 : i % 8 < 8 := by omega
  have hj8 : j % 8 < 8 := by omega
  rw [withBitSet, getLsbD_setByte _ _ _ _ hj]
  by_cases h : j / 8 = i / 8
  · have h2 : 8 * (i / 8) + j % 8 = j := by omega
    have h3 : (j % 8 = i % 8) ↔ (j = i) := by omega
    rw [if_pos h, BitVec.getLsbD_or, getLsbD_one_shift _ _ h8, getLsbD_byteOf, h2, decide_eq_true hj8]
    simp [h3, Bool.or_comm]
  · have h3 : j ≠ i := by rintro rfl; exact h rfl
    simp [h, h3]

theorem getLsbD_withBitClear (r : Wide) (i j : Nat) (hj : j < 1024) :
    (withBitClear r i).getLsbD j = (decide (j ≠ i) && r.getLsbD j) := by
  have h8 : i % 8 < 8 := by omega
  have hj8 : j % 8 < 8 := by omega
  rw [withBitClear, getLsbD_setByte _ _ _ _ hj]
  by_cases h : j / 8 = i / 8
  · have h2 : 8 * (i / 8) + j % 8 = j := by omega
    have h3 : (j % 8 = i % 8) ↔ (j = i) := by omega
    rw [if_pos h, BitVec.getLsbD_and, getLsbD_mask _ _ h8 hj8, getLsbD_byteOf, h2]
    simp [hj8, h3, Bool.and_comm]
  · have h3 : j ≠ i := by rintro rfl; exact h rfl
    simp [h, h3]

/-! ## Byte images -/

@[simp] theorem length_imageOf (w : Width) (r : Wide) : (imageOf w r).length = w.bytes := by
  simp [imageOf]

@[simp] theorem length_leBytes (n v : Nat) : (leBytes n v).length = n := by
  induction n generalizing v with
  | zero => rfl
  | succ n ih => simp [leBytes, ih]

theorem leValue_lt (l : List Byte) : leValue l < 256 ^ l.length := by
  induction l with
  | nil => simp [leValue]
  | cons b bs ih =>
    have := b.isLt
    simp only [leValue, List.length_cons, pow_succ]
    omega

@[simp] theorem leValue_leBytes (n v : Nat) : leValue (leBytes n v) = v % 256 ^ n := by
  induction n generalizing v with
  | zero => simp [leBytes, leValue, Nat.mod_one]
  | succ n ih =>
    have h : v % 256 ^ (n + 1) = v % 256 + 256 * (v / 256 % 256 ^ n) := by
      rw [pow_succ, mul_comm, Nat.mod_mul]
    simp [leBytes, leValue, ih, h]

/-- A byte list is determined by its length and its value. -/
theorem leValue_inj {a b : List Byte} (hl : a.length = b.length) (hv : leValue a = leValue b) : a = b := by
  induction a generalizing b with
  | nil => exact (List.length_eq_zero_iff.1 hl.symm).symm
  | cons x xs ih =>
    cases b with
    | nil => simp at hl
    | cons y ys =>
      have hx := x.isLt
      have hy := y.isLt
      simp only [leValue] at hv
      have h1 : x.toNat = y.toNat := by omega
      have h2 : leValue xs = leValue ys := by omega
      simp only [List.length_cons, Nat.add_right_cancel_iff] at hl
      rw [ih hl h2, BitVec.eq_of_toNat_eq h1]

theorem leBytes_leValue (l : List Byte) : leBytes l.length (leValue l) = l :=
  leValue_inj (by simp) (by simp [Nat.mod_eq_of_lt (leValue_lt l)])

/-- The image at width W is the little-endian form of the unsigned value (10_state.md R11, 20_memory.md R31). -/
theorem imageOf_eq_leBytes (w : Width) (r : Wide) : imageOf w r = leBytes w.bytes (unsignedOf w r) := by
  have key : ∀ n v, leBytes n v = (List.range n).map fun k => BitVec.ofNat 8 (v / 256 ^ k) := by
    intro n
    induction n with
    | zero => intro v; rfl
    | succ n ih =>
      intro v
      rw [List.range_succ_eq_map, List.map_cons, List.map_map, leBytes, ih]
      simp [Function.comp_def, Nat.div_div_eq_div_mul, pow_succ, Nat.mul_comm]
  rw [key, imageOf]
  apply List.map_congr_left
  intro k hk
  rw [List.mem_range] at hk
  apply BitVec.eq_of_toNat_eq
  rw [toNat_byteOf, BitVec.toNat_ofNat, unsignedOf, ← Width.eight_bytes, pow_mul]
  norm_num only
  obtain ⟨d, hd⟩ : ∃ d, w.bytes = k + (d + 1) := ⟨w.bytes - k - 1, by omega⟩
  rw [hd, pow_add, Nat.mod_mul, Nat.add_mul_div_left _ _ (by positivity),
    Nat.div_eq_of_lt (Nat.mod_lt _ (by positivity)), zero_add, Nat.mod_mod_of_dvd]
  exact ⟨256 ^ d, by rw [pow_succ, mul_comm]⟩

@[simp] theorem leValue_imageOf (w : Width) (r : Wide) : leValue (imageOf w r) = unsignedOf w r := by
  rw [imageOf_eq_leBytes, leValue_leBytes, Nat.mod_eq_of_lt]
  calc unsignedOf w r < 2 ^ w.bits := unsignedOf_lt w r
    _ = 256 ^ w.bytes := by rw [← Width.eight_bytes, pow_mul]; norm_num

end Machine
end Sys2Proof
end

