-- ==== Sys2Proof/Laws/State.lean ====
section
/-! SUPPORT. One lemma per field per update of the state, so that no later proof unfolds a record update. -/

namespace Sys2Proof.Machine

section SetReg
variable (s : State) (n m : RegNum) (r : Wide)

@[simp] theorem State.reg_setReg : (s.setReg n r).reg m = if m = n then r else s.reg m := by
  simp only [State.setReg, State.reg, Fin.getElem_fin, Vector.getElem_set]
  by_cases h : m = n
  · subst h; simp
  · have : n.val ≠ m.val := fun e => h (Fin.ext e.symm)
    simp [h, this]

@[simp] theorem State.x_setReg : (s.setReg n r).x = s.x := rfl
@[simp] theorem State.fault_setReg : (s.setReg n r).fault = s.fault := rfl
@[simp] theorem State.finfo_setReg : (s.setReg n r).finfo = s.finfo := rfl
@[simp] theorem State.pending_setReg : (s.setReg n r).pending = s.pending := rfl
@[simp] theorem State.replies_setReg : (s.setReg n r).replies = s.replies := rfl

end SetReg

section WriteV
variable (s : State) (n m : RegNum) (k : Nat) (z : Int)

@[simp] theorem State.reg_writeV : (s.writeV n k z).reg m = if m = n then wideOf k z else s.reg m := by
  simp [State.writeV]
@[simp] theorem State.x_writeV : (s.writeV n k z).x = s.x := rfl
@[simp] theorem State.fault_writeV : (s.writeV n k z).fault = s.fault := rfl
@[simp] theorem State.finfo_writeV : (s.writeV n k z).finfo = s.finfo := rfl
@[simp] theorem State.pending_writeV : (s.writeV n k z).pending = s.pending := rfl
@[simp] theorem State.replies_writeV : (s.writeV n k z).replies = s.replies := rfl

end WriteV

section SetX
variable (s : State) (r : Scalar)

@[simp] theorem State.v_setX : (s.setX r).v = s.v := rfl
@[simp] theorem State.reg_setX (m : RegNum) : (s.setX r).reg m = s.reg m := rfl
@[simp] theorem State.x_setX : (s.setX r).x = r := rfl
@[simp] theorem State.fault_setX : (s.setX r).fault = s.fault := rfl
@[simp] theorem State.finfo_setX : (s.setX r).finfo = s.finfo := rfl
@[simp] theorem State.pending_setX : (s.setX r).pending = s.pending := rfl
@[simp] theorem State.replies_setX : (s.setX r).replies = s.replies := rfl

end SetX

section Raise
variable (c : FaultCause) (cmd : Word) (s : State)

@[simp] theorem v_raise : (raise c cmd s).v = s.v := rfl
@[simp] theorem reg_raise (m : RegNum) : (raise c cmd s).reg m = s.reg m := rfl
@[simp] theorem x_raise : (raise c cmd s).x = s.x := rfl
@[simp] theorem fault_raise : (raise c cmd s).fault = c.code := rfl
@[simp] theorem finfo_raise : (raise c cmd s).finfo = cmd := rfl
@[simp] theorem pending_raise : (raise c cmd s).pending = s.pending := rfl
@[simp] theorem replies_raise : (raise c cmd s).replies = s.replies := rfl

end Raise

section Reply
variable (s : State) (r : Reply)

@[simp] theorem State.v_reply : (s.reply r).v = s.v := rfl
@[simp] theorem State.reg_reply (m : RegNum) : (s.reply r).reg m = s.reg m := rfl
@[simp] theorem State.x_reply : (s.reply r).x = s.x := rfl
@[simp] theorem State.fault_reply : (s.reply r).fault = s.fault := rfl
@[simp] theorem State.finfo_reply : (s.reply r).finfo = s.finfo := rfl
@[simp] theorem State.pending_reply : (s.reply r).pending = s.pending := rfl
@[simp] theorem State.replies_reply : (s.reply r).replies = s.replies ++ [r] := rfl

end Reply

section ResetBlock
variable (s : State)

@[simp] theorem reg_reset (m : RegNum) : State.reset.reg m = 0 := by
  simp [State.reset, State.reg]
@[simp] theorem reg_resetBlock (m : RegNum) : (resetBlock s).reg m = 0 := reg_reset m
@[simp] theorem x_resetBlock : (resetBlock s).x = 0 := rfl
@[simp] theorem fault_resetBlock : (resetBlock s).fault = 0 := rfl
@[simp] theorem finfo_resetBlock : (resetBlock s).finfo = 0 := rfl
@[simp] theorem pending_resetBlock : (resetBlock s).pending = s.pending := rfl
@[simp] theorem replies_resetBlock : (resetBlock s).replies = s.replies := rfl

end ResetBlock

section Acknowledge
variable (s : State)

@[simp] theorem v_acknowledge : (acknowledge s).v = s.v := by unfold acknowledge; split <;> rfl
@[simp] theorem reg_acknowledge (m : RegNum) : (acknowledge s).reg m = s.reg m := by
  unfold acknowledge; split <;> rfl
@[simp] theorem x_acknowledge : (acknowledge s).x = s.x := by unfold acknowledge; split <;> rfl
@[simp] theorem pending_acknowledge : (acknowledge s).pending = s.pending := by
  unfold acknowledge; split <;> rfl
@[simp] theorem replies_acknowledge : (acknowledge s).replies = s.replies := by
  unfold acknowledge; split <;> rfl

end Acknowledge

section Pending
variable (s : State) (l : List Event)

@[simp] theorem reg_withPending (m : RegNum) : State.reg { s with pending := l } m = s.reg m := rfl
@[simp] theorem State.reg_withHost (m : RegNum) (r : List Reply) :
    State.reg { s with pending := l, replies := r } m = s.reg m := rfl
@[simp] theorem faulted_withPending : State.faulted { s with pending := l } = s.faulted := rfl

end Pending

@[simp] theorem State.unsigned_eq (s : State) (w : Width) (n : RegNum) :
    s.unsigned w n = unsignedOf w (s.reg n) := rfl

@[simp] theorem State.value_eq (s : State) (sg : Signedness) (w : Width) (n : RegNum) :
    s.value sg w n = valueOf sg w (s.reg n) := rfl

/-- Two states are equal when every register and every other field is: a register-wise extensionality. -/
theorem State.ext_reg {s t : State} (hv : ∀ m, s.reg m = t.reg m) (hx : s.x = t.x) (hf : s.fault = t.fault)
    (hi : s.finfo = t.finfo) (hp : s.pending = t.pending) (hr : s.replies = t.replies) : s = t := by
  have hv' : s.v = t.v := by
    ext i hi
    have := hv ⟨i, hi⟩
    simp only [State.reg] at this
    simpa using congrArg (fun b : Wide => b[_]) this
  cases s; cases t; simp_all

end Sys2Proof.Machine
end

