-- ==== Sys2Proof/Laws/Ops.lean ====
section
/-! SUPPORT. One lemma for each shared operation that says once everything it can do. -/

namespace Sys2Proof.Machine

@[simp] theorem faulted_eq_false_iff (s : State) : s.faulted = false ↔ s.fault = 0 := by
  simp [State.faulted]

@[simp] theorem faulted_eq_true_iff (s : State) : s.faulted = true ↔ s.fault ≠ 0 := by
  simp [State.faulted]

/-! ## Frames of the shared writes -/

theorem onlyRegister_setReg (s : State) (n : RegNum) (r : Wide) : OnlyRegister s (s.setReg n r) n :=
  ⟨fun m h => by simp [h], rfl, rfl, rfl, rfl, rfl⟩

theorem onlyRegister_writeV (s : State) (n : RegNum) (m : Nat) (z : Int) : OnlyRegister s (s.writeV n m z) n :=
  onlyRegister_setReg ..

theorem onlyScalar_setX (s : State) (r : Scalar) : OnlyScalar s (s.setX r) :=
  ⟨fun _ => rfl, rfl, rfl, rfl, rfl⟩

theorem faultRecorded_raise (c : FaultCause) (cmd : Word) (s : State) : FaultRecorded s (raise c cmd s) c.code cmd :=
  ⟨rfl, rfl, fun _ => rfl, rfl, rfl, rfl⟩

/-! ## Delivering a command -/

theorem command_running {s : State} (h : s.fault = 0) (f : State → State) : command s f = .next (f s) := by
  simp [command, State.faulted, h]

theorem command_faulted {s : State} (h : s.fault ≠ 0) (f : State → State) : command s f = .next s := by
  rw [command, if_pos ((faulted_eq_true_iff s).2 h)]

/-- A delivered command answers a next state: the same one while faulted, its effect otherwise. -/
theorem command_cases {s t : State} {f : State → State} (h : command s f = .next t) :
    (s.fault ≠ 0 ∧ t = s) ∨ (s.fault = 0 ∧ t = f s) := by
  by_cases hf : s.fault = 0
  · rw [command_running hf] at h; injection h with h; exact .inr ⟨hf, h.symm⟩
  · rw [command_faulted hf] at h; injection h with h; exact .inl ⟨hf, h.symm⟩

/-! ## Dividing and indexing -/

theorem dividing_cases (cmd : Word) (w : Width) (sg : Signedness) (ra rb : RegNum) (k : Int → Int → State → State)
    (s : State) :
    (unsignedOf w (s.reg rb) = 0 ∧ dividing cmd w sg ra rb k s = raise .divisionByZero cmd s) ∨
    (unsignedOf w (s.reg rb) ≠ 0 ∧
      dividing cmd w sg ra rb k s = k (valueOf sg w (s.reg ra)) (valueOf sg w (s.reg rb)) s) := by
  by_cases h : unsignedOf w (s.reg rb) = 0 <;> simp [dividing, h]

theorem indexing_cases (cmd : Word) (w : Width) (i : Imm16) (k : Nat → State → State) (s : State) :
    (w.bits ≤ i.toNat ∧ indexing cmd w i k s = raise .indexOutOfRange cmd s) ∨
    (i.toNat < w.bits ∧ indexing cmd w i k s = k i.toNat s) := by
  by_cases h : i.toNat < w.bits
  · exact .inr ⟨h, if_pos h⟩
  · exact .inl ⟨by omega, if_neg h⟩

section Quotient
variable (w : Width) (rd re : RegNum) (a b : Int) (s : State)

/-- The quotient's register holds the quotient, the remainder's the remainder, and no other register changes
(43_divide.md R100). -/
theorem reg_writeQuotientRemainder (m : RegNum) :
    (writeQuotientRemainder w rd re a b s).reg m =
      if m = rd then wideOf w.bits (truncDiv a b)
      else if m = re then wideOf w.bits (truncRem a b) else s.reg m := by
  unfold writeQuotientRemainder
  by_cases h : re = rd
  · subst h; by_cases hm : m = re <;> simp [hm]
  · by_cases hm : m = rd
    · subst hm; simp [h, Ne.symm h]
    · simp [h, hm]

@[simp] theorem x_writeQuotientRemainder : (writeQuotientRemainder w rd re a b s).x = s.x := by
  unfold writeQuotientRemainder; split <;> rfl
@[simp] theorem fault_writeQuotientRemainder : (writeQuotientRemainder w rd re a b s).fault = s.fault := by
  unfold writeQuotientRemainder; split <;> rfl
@[simp] theorem finfo_writeQuotientRemainder : (writeQuotientRemainder w rd re a b s).finfo = s.finfo := by
  unfold writeQuotientRemainder; split <;> rfl
@[simp] theorem pending_writeQuotientRemainder : (writeQuotientRemainder w rd re a b s).pending = s.pending := by
  unfold writeQuotientRemainder; split <;> rfl
@[simp] theorem replies_writeQuotientRemainder : (writeQuotientRemainder w rd re a b s).replies = s.replies := by
  unfold writeQuotientRemainder; split <;> rfl

end Quotient

/-! ## The two divisions -/

theorem truncRem_eq_tmod (a b : Int) : truncRem a b = a.tmod b := by
  have := Int.mul_tdiv_add_tmod a b
  simp only [truncRem, truncDiv]; omega

theorem floorDiv_two_pow (a : Int) (n : Nat) : floorDiv a (2 ^ n) = a / 2 ^ n :=
  Int.fdiv_eq_ediv_of_nonneg a (by positivity)

end Sys2Proof.Machine
end

