-- ==== Sys2Proof/Laws/Effect.lean ====
section
/-! SUPPORT. Every meaning is `command` applied to the effect the command has in a running block. A proof about all commands
splits on that once and then looks at effects only. -/

namespace Sys2Proof.Machine

/-- The effect of a command in a running block. -/
def effectOf (i : Instr) (s : State) : State :=
  match i with
  | .nop => s
  | .neg w _ rd ra => s.writeV rd w.bits (-(s.unsigned w ra : Int))
  | .add w _ rd ra rb => binary w rd ra rb (fun a b => a + b) s
  | .sub w _ rd ra rb => binary w rd ra rb (fun a b => a - b) s
  | .mull w _ rd ra rb => binary w rd ra rb (fun a b => a * b) s
  | .mulf w sg rd ra rb =>
    if fullMultiplyWidthOk w then s.writeV rd (2 * w.bits) (s.value sg w ra * s.value sg w rb)
    else raise .illegalCommand (encode (.mulf w sg rd ra rb)) s
  | .divmod w sg rd re ra rb =>
    dividing (encode (.divmod w sg rd re ra rb)) w sg ra rb (writeQuotientRemainder w rd re) s
  | .mod w sg rd ra rb =>
    dividing (encode (.mod w sg rd ra rb)) w sg ra rb (fun a b s => s.writeV rd w.bits (truncRem a b)) s
  | .shl w _ rd ra n => shiftLeft w rd ra n.toNat s
  | .shr w sg rd ra n => s.writeV rd w.bits (floorDiv (s.value sg w ra) (2 ^ n.toNat))
  | .cmp w sg ra rb => s.setX (orderCode (orderOf (s.value sg w ra) (s.value sg w rb)))
  | .hsb w _ ra => s.setX (indexCode (highestSetBit w (s.reg ra)))
  | .bset w sg rd i =>
    indexing (encode (.bset w sg rd i)) w i (fun k s => s.setReg rd (withBitSet (s.reg rd) k)) s
  | .bclr w sg rd i =>
    indexing (encode (.bclr w sg rd i)) w i (fun k s => s.setReg rd (withBitClear (s.reg rd) k)) s
  | .btst w sg ra i =>
    indexing (encode (.btst w sg ra i)) w i (fun k s => s.setX (bitCode (bitOf (s.reg ra) k))) s
  | .div w sg rd ra rb =>
    dividing (encode (.div w sg rd ra rb)) w sg ra rb (writeQuotientRemainder w rd rd) s
  | .mov w rd ra => shiftLeft w rd ra 0 s
  | .zero rd => binary .w256 rd rd rd (fun a b => a - b) s

theorem exec_eq_command (i : Instr) (s : State) : exec i s = command s (effectOf i) := by
  cases i <;> rfl

theorem exec_running (i : Instr) {s : State} (h : s.fault = 0) : exec i s = .next (effectOf i s) := by
  rw [exec_eq_command, command_running h]

theorem exec_faulted (i : Instr) {s : State} (h : s.fault ≠ 0) : exec i s = .next s := by
  rw [exec_eq_command, command_faulted h]

/-- Everything a delivered command can do. -/
theorem exec_cases {i : Instr} {s t : State} (h : exec i s = .next t) :
    (s.fault ≠ 0 ∧ t = s) ∨ (s.fault = 0 ∧ t = effectOf i s) :=
  command_cases (exec_eq_command i s ▸ h)

/-- An effect neither reads nor changes what is the host's. -/
theorem effectOf_withHost (i : Instr) (s : State) (p : List Event) (r : List Reply) :
    effectOf i { s with pending := p, replies := r } = { effectOf i s with pending := p, replies := r } := by
  cases i
  case mulf => simp only [effectOf]; split <;> rfl
  case bset | bclr | btst => simp only [effectOf, indexing]; split <;> rfl
  case divmod w sg rd re ra rb =>
    by_cases h : unsignedOf w (s.reg rb) = 0 <;> simp only [effectOf, dividing, State.unsigned_eq, State.value_eq,
      State.reg_withHost, h, if_true, if_false, writeQuotientRemainder] <;> (try split) <;> rfl
  case div w sg rd ra rb =>
    by_cases h : unsignedOf w (s.reg rb) = 0 <;> simp only [effectOf, dividing, State.unsigned_eq, State.value_eq,
      State.reg_withHost, h, if_true, if_false, writeQuotientRemainder] <;> rfl
  case mod w sg rd ra rb =>
    by_cases h : unsignedOf w (s.reg rb) = 0 <;> simp only [effectOf, dividing, State.unsigned_eq, State.value_eq,
      State.reg_withHost, h, if_true, if_false] <;> rfl
  all_goals rfl

theorem effectOf_host (i : Instr) (s : State) :
    (effectOf i s).pending = s.pending ∧ (effectOf i s).replies = s.replies := by
  have h := effectOf_withHost i s s.pending s.replies
  exact ⟨(congrArg State.pending h :), (congrArg State.replies h :)⟩

end Sys2Proof.Machine
end

