-- ==== Sys2Proof/Laws/PerInstr.lean ====
section
/-! SUPPORT. Statements about every instruction as syntax, one lemma per constructor. -/

namespace Sys2Proof

namespace Laws.OperationField

/-- The `op` field of an instruction's word is the code of its operation (30_encoding.md R60). -/
def Statement (i : Instr) : Prop := field (encode i) 27 5 = i.operation.code

theorem nop : Statement .nop := rfl

theorem neg (w : Width) (sg : Signedness) (rd ra : RegNum) : Statement (.neg w sg rd ra) := opField_regWord ..

theorem add (w : Width) (sg : Signedness) (rd ra rb : RegNum) : Statement (.add w sg rd ra rb) := opField_regWord ..

theorem sub (w : Width) (sg : Signedness) (rd ra rb : RegNum) : Statement (.sub w sg rd ra rb) := opField_regWord ..

theorem mull (w : Width) (sg : Signedness) (rd ra rb : RegNum) : Statement (.mull w sg rd ra rb) := opField_regWord ..

theorem mulf (w : Width) (sg : Signedness) (rd ra rb : RegNum) : Statement (.mulf w sg rd ra rb) := opField_regWord ..

theorem divmod (w : Width) (sg : Signedness) (rd re ra rb : RegNum) : Statement (.divmod w sg rd re ra rb) := opField_regWord ..

theorem mod (w : Width) (sg : Signedness) (rd ra rb : RegNum) : Statement (.mod w sg rd ra rb) := opField_regWord ..

theorem shl (w : Width) (sg : Signedness) (rd ra : RegNum) (n : Imm16) : Statement (.shl w sg rd ra n) := opField_immWord ..

theorem shr (w : Width) (sg : Signedness) (rd ra : RegNum) (n : Imm16) : Statement (.shr w sg rd ra n) := opField_immWord ..

theorem cmp (w : Width) (sg : Signedness) (ra rb : RegNum) : Statement (.cmp w sg ra rb) := opField_regWord ..

theorem hsb (w : Width) (sg : Signedness) (ra : RegNum) : Statement (.hsb w sg ra) := opField_regWord ..

theorem bset (w : Width) (sg : Signedness) (rd : RegNum) (i : Imm16) : Statement (.bset w sg rd i) := opField_immWord ..

theorem bclr (w : Width) (sg : Signedness) (rd : RegNum) (i : Imm16) : Statement (.bclr w sg rd i) := opField_immWord ..

theorem btst (w : Width) (sg : Signedness) (ra : RegNum) (i : Imm16) : Statement (.btst w sg ra i) := opField_immWord ..

theorem div (w : Width) (sg : Signedness) (rd ra rb : RegNum) : Statement (.div w sg rd ra rb) := opField_regWord ..

theorem mov (w : Width) (rd ra : RegNum) : Statement (.mov w rd ra) := opField_immWord ..

theorem zero (rd : RegNum) : Statement (.zero rd) := opField_regWord ..

end Laws.OperationField
end Sys2Proof
end

