-- ==== Sys2Proof/Laws/Window.lean ====
section
/-! SUPPORT. The window's map, and what delivering an event and stepping can do. -/

namespace Sys2Proof.Machine

/-! ## The map -/

theorem locate_operand {off : Nat} (h : off < 0x400) :
    locate off 1 = some (.operand (Fin.ofNat 8 (off / 0x80)) (off % 0x80)) := by
  simp [locate, h]

@[simp] theorem locate_cmd : locate 0x400 4 = some .cmd := rfl
@[simp] theorem locate_x : locate 0x404 4 = some .x := rfl
@[simp] theorem locate_fault : locate 0x408 4 = some .fault := rfl
@[simp] theorem locate_finfo : locate 0x40C 4 = some .finfo := rfl

/-- The operand byte at `0x80*n + k` (20_memory.md R32). -/
theorem locate_byte (n : RegNum) {k : Nat} (h : k < 128) :
    locate (0x80 * n.val + k) 1 = some (.operand n k) := by
  have hn := n.isLt
  have h1 : (0x80 * n.val + k) / 0x80 = n.val := by omega
  have h2 : (0x80 * n.val + k) % 0x80 = k := by omega
  rw [locate_operand (by omega), h1, h2]
  simp

/-- The admitted accesses are exactly those of 20_memory.md R36. -/
theorem locate_isSome_iff (off size : Nat) :
    (locate off size).isSome = true ↔ (size = 1 ∧ off < 0x400) ∨
      (size = 4 ∧ (off = 0x400 ∨ off = 0x404 ∨ off = 0x408 ∨ off = 0x40C)) := by
  unfold locate
  by_cases h1 : size = 1
  · subst h1; by_cases h : off < 0x400 <;> simp [h]
  · by_cases h4 : size = 4
    · subst h4; simp only [h1, if_false, if_true, false_and, false_or, true_and]
      split_ifs <;> simp_all
    · simp [h1, h4]

theorem operandByte_eq (s : State) (n : RegNum) {k : Nat} (h : k < 128) :
    operandByte s (0x80 * n.val + k) = byteOf (s.reg n) k := by
  have hn := n.isLt
  have h1 : (0x80 * n.val + k) / 0x80 = n.val := by omega
  have h2 : (0x80 * n.val + k) % 0x80 = k := by omega
  rw [operandByte, h1, h2]
  simp

/-! ## Delivering -/

@[simp] theorem deliver_cmdWrite (w : Word) (s : State) : deliver (cmdWrite w) s = issue w s := by
  have h := w.isLt
  have h2 : w.toNat < 256 ^ 4 := by norm_num at h ⊢; exact h
  simp only [cmdWrite, deliver, hostWrite, locate_cmd, if_pos h2, writeLocation, BitVec.ofNat_toNat,
    BitVec.setWidth_eq]

theorem issue_of_decode {w : Word} {i : Instr} (h : decode w = .ok i) (s : State) : issue w s = exec i s := by
  simp [issue, h]

theorem issue_illegal {w : Word} {r : Illegal} (h : decode w = .error r) (s : State) :
    issue w s = command s (raise .illegalCommand w) := by
  simp [issue, h]

/-- Everything a delivered event that answers a next state can do. -/
theorem deliver_cases {e : Event} {s t : State} (h : deliver e s = .next t) :
    (∃ off size l, e = .hostRead off size ∧ locate off size = some l ∧ t = s.reply (readLocation l s)) ∨
    (∃ off value n k, e = .hostWrite off 1 value ∧ locate off 1 = some (.operand n k) ∧ value < 256 ∧
      t = s.setReg n (setByte (s.reg n) k (BitVec.ofNat 8 value))) ∨
    (∃ w : Word, e = cmdWrite w ∧ issue w s = .next t) ∨
    (∃ off value, e = .hostWrite off 4 value ∧ (off = 0x404 ∨ off = 0x40C) ∧ t = s) ∨
    (∃ value, e = .hostWrite 0x408 4 value ∧ t = acknowledge s) ∨
    (e = .reset ∧ t = resetBlock s) := by
  cases e with
  | hostRead off size =>
    simp only [deliver, hostRead] at h
    split at h
    · cases h
    · rename_i l hl; cases h; exact .inl ⟨off, size, l, rfl, hl, rfl⟩
  | hostWrite off size value =>
    simp only [deliver, hostWrite] at h
    split at h
    · cases h
    · rename_i l hl
      split at h
      · rename_i hv
        have hs : (locate off size).isSome = true := by simp [hl]
        rw [locate_isSome_iff] at hs
        obtain ⟨rfl, ho⟩ | ⟨rfl, rfl | rfl | rfl | rfl⟩ := hs
        · rw [locate_operand ho] at hl; cases hl; cases h
          exact .inr (.inl ⟨off, value, _, _, rfl, locate_operand ho, by simpa using hv, rfl⟩)
        · cases hl
          refine .inr (.inr (.inl ⟨BitVec.ofNat 32 value, ?_, h⟩))
          rw [cmdWrite, BitVec.toNat_ofNat, Nat.mod_eq_of_lt]
          norm_num at hv ⊢; exact hv
        · cases hl; cases h; exact .inr (.inr (.inr (.inl ⟨_, _, rfl, .inl rfl, rfl⟩)))
        · cases hl; cases h; exact .inr (.inr (.inr (.inr (.inl ⟨_, rfl, rfl⟩))))
        · cases hl; cases h; exact .inr (.inr (.inr (.inl ⟨_, _, rfl, .inr rfl, rfl⟩)))
      · cases h
  | reset => cases h; exact .inr (.inr (.inr (.inr (.inr ⟨rfl, rfl⟩))))

/-! ## Stepping -/

theorem step_idle {s : State} (h : s.pending = []) : step s = .next s := by
  simp [step, h]

theorem step_pending {s : State} {e : Event} {rest : List Event} (h : s.pending = e :: rest) :
    step s = deliver e { s with pending := rest } := by
  simp [step, h]

/-- A step that answers a next state is idle or delivers the head of the script. -/
theorem step_cases {s t : State} (h : step s = .next t) :
    (s.pending = [] ∧ t = s) ∨
    (∃ e rest, s.pending = e :: rest ∧ deliver e { s with pending := rest } = .next t) := by
  cases hp : s.pending with
  | nil => rw [step_idle hp] at h; injection h with h; exact .inl ⟨rfl, h.symm⟩
  | cons e rest => rw [step_pending hp] at h; exact .inr ⟨e, rest, rfl, h⟩

end Sys2Proof.Machine
end

