-- ==== Sys2Proof/Laws/Safety.lean ====
section
/-! SUPPORT. What a run that has not gone wrong looks like (48_system.md R154). -/

namespace Sys2Proof.Machine

@[simp] theorem wentWrong_nil (s : State) : wentWrong [] s = s.faulted := rfl

/-- An event does not make a run wrong when the block is running or the event acknowledges its fault, the event has a next
state, and the rest of the run from there has not gone wrong. -/
theorem wentWrong_cons_eq_false {e : Event} {es : List Event} {s : State} :
    wentWrong (e :: es) s = false ↔
      (s.fault = 0 ∨ acknowledges e s = true) ∧ ∃ t, deliver e s = .next t ∧ wentWrong es t = false := by
  rw [wentWrong, Bool.or_eq_false_iff, Bool.and_eq_false_iff, faulted_eq_false_iff, Bool.not_eq_false']
  cases deliver e s <;> simp

/-- A run that has not gone wrong has an end state, and no fault is recorded there. -/
theorem run_of_not_wentWrong {es : List Event} {s : State} (h : wentWrong es s = false) :
    ∃ t, run es s = .next t ∧ t.fault = 0 := by
  induction es generalizing s with
  | nil => exact ⟨s, rfl, by simpa using h⟩
  | cons e es ih =>
    obtain ⟨-, t, ht, h⟩ := wentWrong_cons_eq_false.1 h
    rw [run, ht]
    exact ih h

end Sys2Proof.Machine
end

