-- ==== Sys2Proof/Machine/Assembler.lean ====
section
/-! DEFINITION. The assembler notation of 30_encoding.md R65 and R66, on text as a list of characters: writing a command as a
line and reading a line as a command. The block never sees it. -/

namespace Sys2Proof.Machine

/-- What stands before the operands: a command of R60 or a pseudo-command of R66. -/
inductive Mnemonic where
  | core (o : Operation)
  | div | mov | zero
deriving DecidableEq, Repr

/-- An operand: `V0` to `V7`, or `#` and a numeral. -/
inductive AsmOperand where
  | reg (n : RegNum)
  | imm (v : Imm16)
deriving DecidableEq, Repr

/-- The parts of a line: `MNEMONIC`, the type suffix after the dot, and the operands in the order of R60. -/
structure AsmLine where
  name : Mnemonic
  suffix : List Char
  operands : List AsmOperand
deriving DecidableEq, Repr

/-- 30_encoding.md R60 and R66. -/
def Mnemonic.text : Mnemonic → List Char
  | .core .nop => ['N', 'O', 'P']
  | .core .neg => ['N', 'E', 'G']
  | .core .add => ['A', 'D', 'D']
  | .core .sub => ['S', 'U', 'B']
  | .core .mull => ['M', 'U', 'L', 'L']
  | .core .mulf => ['M', 'U', 'L', 'F']
  | .core .divmod => ['D', 'I', 'V', 'M', 'O', 'D']
  | .core .mod => ['M', 'O', 'D']
  | .core .shl => ['S', 'H', 'L']
  | .core .shr => ['S', 'H', 'R']
  | .core .cmp => ['C', 'M', 'P']
  | .core .hsb => ['H', 'S', 'B']
  | .core .bset => ['B', 'S', 'E', 'T']
  | .core .bclr => ['B', 'C', 'L', 'R']
  | .core .btst => ['B', 'T', 'S', 'T']
  | .div => ['D', 'I', 'V']
  | .mov => ['M', 'O', 'V']
  | .zero => ['Z', 'E', 'R', 'O']

/-- Every mnemonic. -/
def Mnemonic.all : List Mnemonic :=
  [.core .nop, .core .neg, .core .add, .core .sub, .core .mull, .core .mulf, .core .divmod, .core .mod, .core .shl] ++
  [.core .shr, .core .cmp, .core .hsb, .core .bset, .core .bclr, .core .btst, .div, .mov, .zero]

/-- `<W>`: 256, 512 or 1024. -/
def Width.text : Width → List Char
  | .w256 => ['2', '5', '6']
  | .w512 => ['5', '1', '2']
  | .w1024 => ['1', '0', '2', '4']

/-- `<S>`: U or S. -/
def Signedness.text : Signedness → Char
  | .unsigned => 'U'
  | .signed => 'S'

/-- `<S><W>`. -/
def typeText (w : Width) (sg : Signedness) : List Char := Signedness.text sg :: Width.text w

/-! ## Writing -/

/-- The parts of an instruction's line; operands in the order of the operands column of R60. -/
def lineOf : Instr → AsmLine
  | .nop => ⟨.core .nop, [], []⟩
  | .neg w sg rd ra => ⟨.core .neg, typeText w sg, [.reg rd, .reg ra]⟩
  | .add w sg rd ra rb => ⟨.core .add, typeText w sg, [.reg rd, .reg ra, .reg rb]⟩
  | .sub w sg rd ra rb => ⟨.core .sub, typeText w sg, [.reg rd, .reg ra, .reg rb]⟩
  | .mull w sg rd ra rb => ⟨.core .mull, typeText w sg, [.reg rd, .reg ra, .reg rb]⟩
  | .mulf w sg rd ra rb => ⟨.core .mulf, typeText w sg, [.reg rd, .reg ra, .reg rb]⟩
  | .divmod w sg rd re ra rb => ⟨.core .divmod, typeText w sg, [.reg rd, .reg re, .reg ra, .reg rb]⟩
  | .mod w sg rd ra rb => ⟨.core .mod, typeText w sg, [.reg rd, .reg ra, .reg rb]⟩
  | .shl w sg rd ra n => ⟨.core .shl, typeText w sg, [.reg rd, .reg ra, .imm n]⟩
  | .shr w sg rd ra n => ⟨.core .shr, typeText w sg, [.reg rd, .reg ra, .imm n]⟩
  | .cmp w sg ra rb => ⟨.core .cmp, typeText w sg, [.reg ra, .reg rb]⟩
  | .hsb w sg ra => ⟨.core .hsb, typeText w sg, [.reg ra]⟩
  | .bset w sg rd i => ⟨.core .bset, typeText w sg, [.reg rd, .imm i]⟩
  | .bclr w sg rd i => ⟨.core .bclr, typeText w sg, [.reg rd, .imm i]⟩
  | .btst w sg ra i => ⟨.core .btst, typeText w sg, [.reg ra, .imm i]⟩
  | .div w sg rd ra rb => ⟨.div, typeText w sg, [.reg rd, .reg ra, .reg rb]⟩
  | .mov w rd ra => ⟨.mov, Width.text w, [.reg rd, .reg ra]⟩
  | .zero rd => ⟨.zero, [], [.reg rd]⟩

/-- An operand as text; an immediate is written in decimal (log entry 16). -/
def operandText : AsmOperand → List Char
  | .reg n => ['V', Char.ofNat (48 + n.val)]
  | .imm v => '#' :: Nat.toDigits 10 v.toNat

/-- One command as a line of R65. -/
def toAssembly (i : Instr) : List Char :=
  let l := lineOf i
  l.name.text ++ (if l.suffix = [] then [] else '.' :: l.suffix) ++
    (if l.operands = [] then [] else ' ' :: List.intercalate [',', ' '] (l.operands.map operandText))

/-! ## Reading -/

/-- A numeral in the given base of at most 65535 (R65). -/
def numeral (base : Nat) (ds : List Char) : Option Imm16 :=
  if ds = [] then none
  else
    match ds.foldl (fun acc c => match acc, digitValue c with
      | some n, some d => if d < base then some (base * n + d) else none
      | _, _ => none) (some 0) with
    | some n => if n ≤ 65535 then some (BitVec.ofNat 16 n) else none
    | none => none

/-- One operand. -/
def parseOperand : List Char → Option AsmOperand
  | ['V', c] => if 48 ≤ c.toNat ∧ c.toNat ≤ 55 then some (.reg (Fin.ofNat 8 (c.toNat - 48))) else none
  | '#' :: '0' :: 'x' :: ds => (numeral 16 ds).map .imm
  | '#' :: ds => (numeral 10 ds).map .imm
  | _ => none

/-- The type suffix `<S><W>`. -/
def parseType (text : List Char) : Option (Width × Signedness) :=
  [(Width.w256, Signedness.unsigned), (.w256, .signed), (.w512, .unsigned), (.w512, .signed), (.w1024, .unsigned),
    (.w1024, .signed)].find? fun t => typeText t.1 t.2 == text

/-- The command of a mnemonic with a type suffix. -/
def typedInstr (m : Mnemonic) (w : Width) (sg : Signedness) (ops : List AsmOperand) : Option Instr :=
  match m, ops with
  | .core .neg, [.reg rd, .reg ra] => some (.neg w sg rd ra)
  | .core .add, [.reg rd, .reg ra, .reg rb] => some (.add w sg rd ra rb)
  | .core .sub, [.reg rd, .reg ra, .reg rb] => some (.sub w sg rd ra rb)
  | .core .mull, [.reg rd, .reg ra, .reg rb] => some (.mull w sg rd ra rb)
  | .core .mulf, [.reg rd, .reg ra, .reg rb] => some (.mulf w sg rd ra rb)
  | .core .divmod, [.reg rd, .reg re, .reg ra, .reg rb] => some (.divmod w sg rd re ra rb)
  | .core .mod, [.reg rd, .reg ra, .reg rb] => some (.mod w sg rd ra rb)
  | .core .shl, [.reg rd, .reg ra, .imm n] => some (.shl w sg rd ra n)
  | .core .shr, [.reg rd, .reg ra, .imm n] => some (.shr w sg rd ra n)
  | .core .cmp, [.reg ra, .reg rb] => some (.cmp w sg ra rb)
  | .core .hsb, [.reg ra] => some (.hsb w sg ra)
  | .core .bset, [.reg rd, .imm i] => some (.bset w sg rd i)
  | .core .bclr, [.reg rd, .imm i] => some (.bclr w sg rd i)
  | .core .btst, [.reg ra, .imm i] => some (.btst w sg ra i)
  | .div, [.reg rd, .reg ra, .reg rb] => some (.div w sg rd ra rb)
  | _, _ => none

/-- The command of the parts of a line: NOP and ZERO take no suffix, MOV a width alone, every other a type. -/
def instrOf (l : AsmLine) : Option Instr :=
  match l.name, l.suffix, l.operands with
  | .core .nop, [], [] => some .nop
  | .zero, [], [.reg rd] => some (.zero rd)
  | .mov, suffix, [.reg rd, .reg ra] =>
    ([Width.w256, .w512, .w1024].find? fun w => Width.text w == suffix).map fun w => .mov w rd ra
  | m, suffix, ops =>
    match parseType suffix with
    | some (w, sg) => typedInstr m w sg ops
    | none => none

/-- Spaces at either end removed. -/
def trimSpaces (text : List Char) : List Char :=
  ((text.dropWhile (· == ' ')).reverse.dropWhile (· == ' ')).reverse

/-- The operands of a line, separated by commas; spaces around one are allowed (log entry 16). -/
def parseOperands (text : List Char) : Option (List AsmOperand) :=
  if trimSpaces text = [] then some []
  else (text.splitOn ',').mapM fun t => parseOperand (trimSpaces t)

/-- One line of R65 as a command; no meaning for any other text. -/
def ofAssembly (text : List Char) : Option Instr :=
  let line := trimSpaces text
  let head := line.takeWhile (· != ' ')
  let name := head.takeWhile (· != '.')
  if head.getLast? = some '.' then none
  else match Mnemonic.all.find? fun m => m.text == name, parseOperands (line.dropWhile (· != ' ')) with
  | some m, some ops => instrOf ⟨m, (head.dropWhile (· != '.')).drop 1, ops⟩
  | _, _ => none

end Sys2Proof.Machine
end

