-- ==== Sys2Proof/Tests/Slice0.lean ====
section
/-! SUPPORT. The model's own tests. Words are those of 30_encoding.md section 7 and R66, expected results those of
95_test_vectors.md and of the examples in the rules; each test names its place. The witnesses show states and operands that
meet the hypotheses of the statements. -/

open Sys2Proof Sys2Proof.Machine

namespace Sys2Proof.Tests

-- One thread at a time: the kernel evaluations below, elaborated in parallel, take a thread and its stack each.
set_option Elab.async false

/-! ## Helpers -/

/-- The state after reset with V0 and V1 loaded. -/
def loaded (a b : Nat) : State := (State.reset.setReg 0 (BitVec.ofNat 1024 a)).setReg 1 (BitVec.ofNat 1024 b)

/-- A block in which the command word has recorded the cause. -/
def faultedBy (code : BitVec 3) (cmd : Word) : State := { loaded 7 2 with fault := code, finfo := cmd }

/-- What a step answers, as a next state if it has one. -/
def after (o : Outcome) : Option State :=
  match o with
  | .next s => some s
  | .fault _ => none
  | .refused _ => none

/-- A wide register after a command. -/
def regAfter (i : Instr) (s : State) (n : RegNum) : Option Wide := (after (exec i s)).map fun t => t.reg n

/-- X after a command. -/
def xAfter (i : Instr) (s : State) : Option Scalar := (after (exec i s)).map fun t => t.x

/-- FAULT and FINFO after a command. -/
def faultAfter (i : Instr) (s : State) : Option (BitVec 3 × Word) :=
  (after (exec i s)).map fun t => (t.fault, t.finfo)

/-! ## Well-formedness: the one check, and the widths it accepts -/

theorem test_wf_refuses_full_multiply_at_1024 : (Instr.mulf .w1024 .unsigned 2 0 1).wf = false := rfl
theorem test_wf_accepts_full_multiply_at_512 : (Instr.mulf .w512 .signed 2 0 1).wf = true := rfl

/-! ## Decoding: the words of 30_encoding.md section 7 and R66 -/

theorem test_decode_nop : decode 0x00000000 = .ok .nop := rfl
theorem test_decode_neg : decode 0x09200000 = .ok (.neg .w256 .signed 1 0) := rfl
theorem test_decode_add : decode 0x10408000 = .ok (.add .w256 .unsigned 2 0 1) := rfl
theorem test_decode_add_1024 : decode 0x15FF8000 = .ok (.add .w1024 .signed 7 7 7) := rfl
theorem test_decode_sub : decode 0x18688000 = .ok (.sub .w256 .unsigned 3 2 1) := rfl
theorem test_decode_mull : decode 0x20400000 = .ok (.mull .w256 .unsigned 2 0 0) := rfl
theorem test_decode_mulf : decode 0x2BFA8000 = .ok (.mulf .w512 .signed 7 6 5) := rfl
theorem test_decode_divmod : decode 0x30684000 = .ok (.divmod .w256 .unsigned 3 4 2 0) := rfl
theorem test_decode_mod : decode 0x38A08000 = .ok (.mod .w256 .unsigned 5 0 1) := rfl
theorem test_decode_shl : decode 0x442003FF = .ok (.shl .w1024 .unsigned 1 0 1023) := rfl
theorem test_decode_shr : decode 0x49440004 = .ok (.shr .w256 .signed 2 1 4) := rfl
theorem test_decode_cmp : decode 0x51008000 = .ok (.cmp .w256 .signed 0 1) := rfl
theorem test_decode_hsb : decode 0x5A080000 = .ok (.hsb .w512 .unsigned 2) := rfl
theorem test_decode_bset : decode 0x600000FF = .ok (.bset .w256 .unsigned 0 255) := rfl
theorem test_decode_bclr : decode 0x6CE003FF = .ok (.bclr .w1024 .unsigned 7 1023) := rfl
theorem test_decode_btst : decode 0x70040011 = .ok (.btst .w256 .unsigned 1 17) := rfl

/-- R66: the words of the pseudo-commands, and what the decoder reads from them. -/
theorem test_word_div : encode (.div .w256 .unsigned 3 2 0) = 0x30683000 ∧
    decode 0x30683000 = .ok (.divmod .w256 .unsigned 3 3 2 0) := ⟨rfl, rfl⟩
theorem test_word_mov : encode (.mov .w256 1 0) = 0x40200000 ∧
    decode 0x40200000 = .ok (.shl .w256 .unsigned 1 0 0) := ⟨rfl, rfl⟩
theorem test_word_zero : encode (.zero 1) = 0x18248000 ∧
    decode 0x18248000 = .ok (.sub .w256 .unsigned 1 1 1) := ⟨rfl, rfl⟩

/-- The illegal words of 30_encoding.md section 7, each by its letter of R62. -/
theorem test_illegal_words : decode 0x78000000 = .error .reservedOperation ∧
    decode 0xFFFFFFFF = .error .reservedOperation ∧ decode 0x01000000 = .error .nopWithOtherBits ∧
    decode 0x16408000 = .error .reservedWidth ∧ decode 0x10408001 = .error .mustBeZeroBitSet ∧
    decode 0x2C408000 = .error .fullMultiplyAt1024 ∧ decode 0x50208000 = .error .mustBeZeroBitSet ∧
    decode 0x40210000 = .error .mustBeZeroBitSet := ⟨rfl, rfl, rfl, rfl, rfl, rfl, rfl, rfl⟩

theorem test_table_word : decodeTableWord 32 0x38A08000 = some (.mod .w256 .unsigned 5 0 1) := rfl

/-! ## Commands -/

/-- 48_system.md R150. -/
theorem test_nop : after (exec .nop (loaded 7 2)) = some (loaded 7 2) := by decide +kernel

/-- 41_add_sub_neg.md R80, example and corner case. -/
theorem test_neg_one : regAfter (.neg .w256 .signed 1 0) (loaded 1 0) 1 = some (BitVec.ofNat 1024 (2 ^ 256 - 1)) := by
  decide +kernel
theorem test_neg_most_negative : regAfter (.neg .w256 .signed 1 0) (loaded (2 ^ 255) 0) 1 =
    some (BitVec.ofNat 1024 (2 ^ 255)) := by decide +kernel

/-- 41_add_sub_neg.md R81: the source's `1 + 1 == 2`, and wrap-around with the carry dropped. -/
theorem test_add : regAfter (.add .w256 .unsigned 2 0 1) (loaded 1 1) 2 = some 2 := by decide +kernel
theorem test_add_wraps : regAfter (.add .w256 .unsigned 0 0 1) (loaded (2 ^ 256 - 1) 1) 0 = some 0 := by decide +kernel

/-- 41_add_sub_neg.md R82, example. -/
theorem test_sub : regAfter (.sub .w256 .unsigned 3 2 1) (loaded 0 1) 3 = some (BitVec.ofNat 1024 (2 ^ 256 - 1)) := by
  decide +kernel

/-- 42_multiply.md R90: the example, and `(2^W - 1)^2 = 1`. -/
theorem test_mull : regAfter (.mull .w256 .unsigned 2 0 0) (loaded (2 ^ 63 - 1) 0) 2 =
    some (BitVec.ofNat 1024 (2 ^ 126 - 2 ^ 64 + 1)) := by decide +kernel
theorem test_mull_truncates : regAfter (.mull .w256 .unsigned 2 0 0) (loaded (2 ^ 256 - 1) 0) 2 = some 1 := by
  decide +kernel

/-- 95_test_vectors.md S5, and 42_multiply.md R91: -1 times -1. -/
theorem test_mulf_regression_vector : regAfter (.mulf .w256 .unsigned 2 0 0) (loaded (2 ^ 255 - 1) 0) 2 =
    some (BitVec.ofNat 1024 (2 ^ 510 - 2 ^ 256 + 1)) := by decide +kernel
theorem test_mulf_signed : regAfter (.mulf .w256 .signed 2 0 0) (loaded (2 ^ 256 - 1) 0) 2 = some 1 := by
  decide +kernel

/-- 43_divide.md R102: -7 by 2 gives -3 and -1. -/
theorem test_divmod_quotient : regAfter (.divmod .w256 .signed 3 4 0 1) (loaded (2 ^ 256 - 7) 2) 3 =
    some (BitVec.ofNat 1024 (2 ^ 256 - 3)) := by decide +kernel
theorem test_divmod_remainder : regAfter (.divmod .w256 .signed 3 4 0 1) (loaded (2 ^ 256 - 7) 2) 4 =
    some (BitVec.ofNat 1024 (2 ^ 256 - 1)) := by decide +kernel

/-- 43_divide.md R101, and R103 with a divisor that is zero in its low 256 bits only (the word of R101's example with
registers 2, 0, 1, 95_test_vectors.md section 10). -/
theorem test_mod : regAfter (.mod .w256 .unsigned 5 0 1) (loaded 7 2) 5 = some 1 := by decide +kernel
theorem test_mod_by_zero : faultAfter (.mod .w256 .unsigned 2 0 1) (loaded 7 (2 ^ 256)) = some (1, 0x38408000) := by
  decide +kernel

/-- 44_shift.md R110 example, R112. -/
theorem test_shl : regAfter (.shl .w256 .unsigned 1 0 255) (loaded 1 0) 1 = some (BitVec.ofNat 1024 (2 ^ 255)) := by
  decide +kernel
theorem test_shl_by_width : regAfter (.shl .w256 .unsigned 1 0 256) (loaded 1 0) 1 = some 0 := by decide +kernel

/-- 44_shift.md R111 examples. -/
theorem test_shr_logical : regAfter (.shr .w256 .unsigned 3 1 4) (loaded 0 (2 ^ 255)) 3 =
    some (BitVec.ofNat 1024 (2 ^ 251)) := by decide +kernel
theorem test_shr_arithmetic : regAfter (.shr .w256 .signed 2 1 4) (loaded 0 (2 ^ 255)) 2 =
    some (BitVec.ofNat 1024 (0xF8 * 256 ^ 31)) := by decide +kernel

/-- 45_compare.md R120 examples. -/
theorem test_cmp_unsigned : xAfter (.cmp .w256 .unsigned 0 1) (loaded (2 ^ 255) 1) = some 0x0001 := by decide +kernel
theorem test_cmp_signed : xAfter (.cmp .w256 .signed 0 1) (loaded (2 ^ 255) 1) = some 0xFFFF := by decide +kernel

/-- 46_bit_utilities.md R130: the example, and zero below bits that stand above the width. -/
theorem test_hsb : xAfter (.hsb .w512 .unsigned 0) (loaded (2 ^ 510 - 2 ^ 256 + 1) 0) = some 509 := by decide +kernel
theorem test_hsb_zero : xAfter (.hsb .w256 .unsigned 0) (loaded (2 ^ 256) 0) = some 0xFFFF := by decide +kernel

/-- 95_test_vectors.md P6 step 5 and P5 step 10. -/
theorem test_bset_keeps_the_rest : regAfter (.bset .w512 .unsigned 1 300) (loaded 0 1) 1 =
    some (BitVec.ofNat 1024 (2 ^ 300 + 1)) := by decide +kernel
theorem test_bset_out_of_range : faultAfter (.bset .w256 .unsigned 0 256) (loaded 7 2) = some (2, 0x60000100) := by
  decide +kernel

/-- 46_bit_utilities.md R132 example. -/
theorem test_bclr : regAfter (.bclr .w1024 .unsigned 0 1023) (loaded (2 ^ 1024 - 1) 0) 0 =
    some (BitVec.ofNat 1024 (2 ^ 1023 - 1)) := by decide +kernel

/-- 46_bit_utilities.md R133 example. -/
theorem test_btst_set : xAfter (.btst .w256 .unsigned 1 17) (loaded 0 (2 ^ 17)) = some 0x0001 := by decide +kernel
theorem test_btst_clear : xAfter (.btst .w256 .unsigned 1 17) { loaded 0 (2 ^ 16) with x := 0xFFFF } = some 0x0000 := by
  decide +kernel

/-- 95_test_vectors.md S4. -/
theorem test_div : regAfter (.div .w256 .unsigned 2 0 1) (loaded (2 ^ 126 - 2 ^ 64 + 1) (2 ^ 63 - 1)) 2 =
    some (BitVec.ofNat 1024 (2 ^ 63 - 1)) := by decide +kernel

/-- 95_test_vectors.md P6 step 3. -/
theorem test_mov_truncates : regAfter (.mov .w256 3 1) (loaded 0 (2 ^ 257 - 2)) 3 =
    some (BitVec.ofNat 1024 (2 ^ 256 - 2)) := by decide +kernel

/-- 30_encoding.md R66. -/
theorem test_zero : regAfter (.zero 1) (loaded 0 (2 ^ 1024 - 1)) 1 = some 0 := by decide +kernel

/-! ## The window and the host's functions (95_test_vectors.md sections 10 to 12) -/

theorem test_top_byte_write : (after (deliver (.hostWrite 0x3FF 1 0xA5) State.reset)).map (fun t => t.reg 7) =
    some (BitVec.ofNat 1024 (0xA5 * 256 ^ 127)) := by decide +kernel

theorem test_fatal_fault_not_acknowledged :
    after (deliver (.hostWrite 0x408 4 1) (faultedBy 2 0x72000200)) = some (faultedBy 2 0x72000200) := by
  decide +kernel

theorem test_wide_operand_access_refused :
    deliver (.hostRead 0x000 4) State.reset = .refused (.accessNotAdmitted 0x000 4) := rfl

theorem test_first_step_runs_the_word :
    (after (step ((loaded 1 1).withFetchWord 32 0x10408000))).map (fun t => (t.reg 2, t.pending)) = some (2, []) := by
  decide +kernel

/-- 48_system.md R154: a run that ends faulted; a fault acknowledged at the point where it stands; and the opening of
95_test_vectors.md P5, where a discarded command stands between the fault and the acknowledge. -/
theorem test_run_ends_faulted : wentWrong [cmdWrite 0x3060C000] (loaded 7 0) = true := by decide +kernel
theorem test_run_acknowledges_at_once :
    wentWrong [cmdWrite 0x3060C000, .hostWrite 0x408 4 0] (loaded 7 0) = false := by decide +kernel
theorem test_run_acknowledges_too_late :
    wentWrong [cmdWrite 0x3060C000, cmdWrite 0x10400000, .hostWrite 0x408 4 0] (loaded 7 0) = true := by decide +kernel

theorem test_from_native_unsigned :
    (fromNative Config.defaultHost .unsigned .w256 (-1)).toOption.map leValue = some (2 ^ 64 - 1) := by decide +kernel
theorem test_to_native : toNativeInt Config.defaultHost (leBytes 32 (2 ^ 63)) = -9223372036854775808 := by
  decide +kernel
theorem test_hex_text : toHexString Config.defaultHost (leBytes 64 0xa0b0c) = ['a', '0', 'b', '0', 'c'] := by
  decide +kernel
theorem test_hex_parse : (fromHex .w256 ['A', 'B', 'C', 'D', 'E', 'F']).toOption.map leValue = some 0xabcdef := by
  decide +kernel
theorem test_hex_prefix_rejected : (fromHex .w256 ['0', 'x', '1']).toOption = none := by decide +kernel
/-- 30_encoding.md R65: two of its example lines, and a register that does not exist. -/
theorem test_assembly_written : toAssembly (.shr .w256 .signed 2 1 4) =
    ['S', 'H', 'R', '.', 'S', '2', '5', '6', ' ', 'V', '2', ',', ' ', 'V', '1', ',', ' ', '#', '4'] := by decide
theorem test_assembly_read : ofAssembly
    ['B', 'T', 'S', 'T', '.', 'U', '2', '5', '6', ' ', 'V', '1', ',', ' ', '#', '1', '7'] =
      some (.btst .w256 .unsigned 1 17) := by decide +kernel
theorem test_assembly_no_such_register : ofAssembly ['Z', 'E', 'R', 'O', ' ', 'V', '8'] = none := by decide +kernel
theorem test_ripple_add : rippleAdd 0 (leBytes 32 0x01ffff) (leBytes 32 1) = leBytes 32 0x020000 := by decide +kernel
theorem test_ripple_sub : rippleSub 0 (leBytes 32 0x010000) (leBytes 32 1) = leBytes 32 0x00ffff := by decide +kernel

/-! ## Witnesses: states and operands that meet the hypotheses of the statements

Most statements assume `s.fault = 0`; `witness_running` is theirs, and each further hypothesis has a witness below. Where a
hypothesis is that commands answer next states, the witness gives the operands and the states exist. -/

theorem witness_running : (loaded 7 2).fault = 0 := rfl

theorem witness_reset_ends_a_fatal_fault : ∃ t, deliver .reset (faultedBy 2 0x60000100) = .next t ∧
    ((faultedBy 2 0x60000100).fault = 2 ∨ (faultedBy 2 0x60000100).fault = 3) ∧
    t.fault ≠ (faultedBy 2 0x60000100).fault := ⟨_, rfl, .inl rfl, by decide⟩
theorem witness_reset_ends_an_illegal_command : ∃ t, deliver .reset (faultedBy 3 0x78000000) = .next t ∧
    (faultedBy 3 0x78000000).fault = 3 ∧ t.fault ≠ (faultedBy 3 0x78000000).fault := ⟨_, rfl, rfl, by decide⟩

theorem witness_StepRunsTheDecodedCommand :
    ({ loaded 1 1 with pending := [cmdWrite 0x10408000, .reset] } : State).pending = cmdWrite 0x10408000 :: [.reset] ∧
    decode 0x10408000 = .ok (.add .w256 .unsigned 2 0 1) ∧
    decodeTableWord 32 0x10408000 = some (.add .w256 .unsigned 2 0 1) ∧ (loaded 1 1).pending = [] :=
  ⟨rfl, rfl, rfl, rfl⟩

theorem witness_BlockStateFollows : ({ State.reset with pending := [.reset] } : State).pending = .reset :: [] ∧
    SameBlock State.reset { State.reset with pending := [.reset], replies := [.byte 0] } ∧
    ∃ t, deliver (cmdWrite 0x10408000) State.reset = .next t := ⟨rfl, ⟨rfl, rfl, rfl, rfl⟩, _, rfl⟩

theorem witness_HostAccesses : (0 : Nat) < 128 ∧ (127 : Nat) < 128 ∧ (255 : Nat) < 256 ∧ 0xFFFFFFFF < 2 ^ 32 ∧
    ((7 : RegNum) ≠ 0 ∨ (0 : Nat) ≠ 0) ∧ ((0 : RegNum) ≠ 0 ∨ (1 : Nat) ≠ 0) := by decide

/-- A legal word, an illegal one, and a block that is faulted, for the writes to CMD. -/
theorem witness_CmdWrites : decode 0x10408000 = .ok (.add .w256 .unsigned 2 0 1) ∧ isIllegal 0x78000000 = true ∧
    (loaded 7 2).fault = 0 ∧ (faultedBy 1 0x38408000).fault ≠ 0 := ⟨rfl, rfl, rfl, by decide⟩

theorem witness_OnlyTheWindowsAccessesAreAdmitted : (255 < 256 ^ 1 ∧ 0x3FF < 0x400) ∧ 0xFFFFFFFF < 256 ^ 4 ∧
    ¬ (((1 : Nat) = 1 ∧ 0x400 < 0x400) ∨
      ((1 : Nat) = 4 ∧ (0x400 = 0x400 ∨ 0x400 = 0x404 ∨ 0x400 = 0x408 ∨ 0x400 = 0x40C))) := by decide

theorem witness_LoadedImageIsHeldAndReadBack : (leBytes 32 1).length ≤ 128 ∧ (leBytes 128 1).length ≤ 128 ∧
    (0 : Nat) < (leBytes 32 1).length ∧ (leBytes 32 1).length ≤ 32 ∧ (7 : RegNum) ≠ 0 := by decide +kernel

theorem witness_EveryInstructionIsReadBack : (Instr.mulf .w512 .signed 7 6 5).wf = true ∧
    (Instr.mulf .w1024 .signed 7 6 5).wf = false := ⟨rfl, rfl⟩

theorem witness_EveryLegalWord : decode 0x6CE003FF = .ok (.bclr .w1024 .unsigned 7 1023) := rfl

theorem witness_IllegalWords : isIllegal 0x2C408000 = true ∧ isIllegal 0x40210000 = true ∧ (loaded 7 2).fault = 0 :=
  ⟨rfl, rfl, rfl⟩

theorem witness_SignednessMattersToFiveCommandsOnly : ∃ t t',
    exec (.bset .w256 .unsigned 0 255) (loaded 7 2) = .next t ∧ exec (.bset .w256 .signed 0 255) (loaded 7 2) = .next t' :=
  ⟨_, _, rfl, rfl⟩

theorem witness_NopChangesNothing : (0x01000000 : Word).toNat / 2 ^ 27 = 0 ∧ (0x01000000 : Word) ≠ 0 := by decide

theorem witness_AddingThenSubtracting : ∃ t u v, (loaded (2 ^ 256 - 1) 2).fault = 0 ∧ (0 : RegNum) ≠ 1 ∧
    exec (.add .w256 .unsigned 0 0 1) (loaded (2 ^ 256 - 1) 2) = .next t ∧
    exec (.sub .w256 .unsigned 0 0 1) t = .next u ∧ exec (.neg .w256 .unsigned 0 0) u = .next v :=
  ⟨_, _, _, rfl, by decide, rfl, rfl, rfl⟩

theorem witness_double_widths : Width.w256.double = some .w512 ∧ Width.w512.double = some .w1024 ∧
    Width.w1024.double = none := ⟨rfl, rfl, rfl⟩

theorem witness_SquareDivided_same_width : ∃ t u, (loaded (2 ^ 63 - 1) 0).fault = 0 ∧ (1 : RegNum) ≠ 0 ∧
    exec (.mull .w256 .unsigned 1 0 0) (loaded (2 ^ 63 - 1) 0) = .next t ∧
    exec (.div .w256 .unsigned 2 1 0) t = .next u := ⟨_, _, rfl, by decide, rfl, rfl⟩
theorem witness_SquareDivided_operand : (loaded (2 ^ 63 - 1) 0).unsigned .w256 0 ≠ 0 ∧
    (loaded (2 ^ 63 - 1) 0).unsigned .w256 0 * (loaded (2 ^ 63 - 1) 0).unsigned .w256 0 < 2 ^ Width.w256.bits := by
  decide +kernel
theorem witness_SquareDivided_double_width : ∃ t u, (loaded (2 ^ 255 - 1) 0).fault = 0 ∧ (1 : RegNum) ≠ 0 ∧
    (2 : RegNum) ≠ 3 ∧ exec (.mulf .w256 .unsigned 1 0 0) (loaded (2 ^ 255 - 1) 0) = .next t ∧
    exec (.divmod .w512 .unsigned 2 3 1 0) t = .next u := ⟨_, _, rfl, by decide, by decide, rfl, rfl⟩
theorem witness_SquareDivided_double_width_operand :
    (loaded (2 ^ 255 - 1) 0).unsigned .w512 0 = (loaded (2 ^ 255 - 1) 0).unsigned .w256 0 ∧
    (loaded (2 ^ 255 - 1) 0).unsigned .w256 0 ≠ 0 := by decide +kernel

theorem witness_divisors : (loaded 7 2).unsigned .w256 1 ≠ 0 ∧ (loaded 7 (2 ^ 256)).unsigned .w256 1 = 0 ∧
    (loaded 7 (2 ^ 256)).fault = 0 ∧ (4 : RegNum) ≠ 3 ∧ (5 : RegNum) ≠ 3 ∧ (5 : RegNum) ≠ 4 := by decide +kernel
theorem witness_ZeroDivisor : ∀ k : Fin 32, byteOf ((loaded 7 (2 ^ 256)).reg 1) k.val = 0 := by decide +kernel
theorem witness_SignedQuotientOverflow :
    (loaded (2 ^ 255) (2 ^ 256 - 1)).value .signed .w256 0 = -2 ^ (Width.w256.bits - 1) ∧
    (loaded (2 ^ 255) (2 ^ 256 - 1)).value .signed .w256 1 = -1 ∧
    (loaded (2 ^ 255) (2 ^ 256 - 1)).unsigned .w256 1 ≠ 0 := by decide +kernel
theorem witness_no_SignedQuotientOverflow :
    (loaded (2 ^ 255 + 1) (2 ^ 256 - 1)).value .signed .w256 0 ≠ -2 ^ (Width.w256.bits - 1) ∧
    (loaded (2 ^ 255 + 1) (2 ^ 256 - 1)).unsigned .w256 1 ≠ 0 := by decide +kernel

theorem witness_ShiftsByTheWidthOrMore : Width.w256.bits ≤ (256 : Imm16).toNat ∧
    Width.w1024.bits ≤ (0xFFFF : Imm16).toNat := by decide

theorem witness_CmpWritesTheOrder : (loaded 2 7).value .signed .w256 0 < (loaded 2 7).value .signed .w256 1 ∧
    (loaded 7 7).value .signed .w256 0 = (loaded 7 7).value .signed .w256 1 ∧
    (loaded 7 2).value .signed .w256 1 < (loaded 7 2).value .signed .w256 0 := by decide +kernel
theorem witness_SignCrossing : signBit .w256 ((loaded (2 ^ 255) 1).reg 0) ≠ signBit .w256 ((loaded (2 ^ 255) 1).reg 1) ∧
    signBit .w256 ((loaded 7 2).reg 0) = signBit .w256 ((loaded 7 2).reg 1) := by decide +kernel

theorem witness_HsbWritesTheHighestSetIndex : (loaded (2 ^ 256) 0).unsigned .w256 0 = 0 ∧
    (loaded (2 ^ 256) 0).unsigned .w512 0 ≠ 0 := by decide +kernel
theorem witness_bit_indexes : (255 : Imm16).toNat < Width.w256.bits ∧ Width.w256.bits ≤ (256 : Imm16).toNat ∧
    (0 : Imm16).toNat < Width.w256.bits := by decide

theorem witness_ShiftedOne : ∃ t u v, (loaded 1 0).fault = 0 ∧ exec (.shl .w256 .unsigned 1 0 255) (loaded 1 0) = .next t ∧
    exec (.btst .w256 .unsigned 1 255) t = .next u ∧ exec (.hsb .w256 .unsigned 1) t = .next v :=
  ⟨_, _, _, rfl, rfl, rfl, rfl⟩
theorem witness_ShiftedOne_operand : (loaded 1 0).unsigned .w256 0 = 1 ∧
    (loaded (2 ^ 256 + 1) 0).unsigned .w256 0 = 1 := by decide +kernel

theorem witness_BitCommandsAgree : ∃ t u v t' u' h, (loaded 0 2).fault = 0 ∧ (loaded 0 2).reg 0 = 0 ∧
    exec (.bset .w256 .unsigned 0 17) (loaded 0 2) = .next t ∧ exec (.btst .w256 .unsigned 0 18) t = .next u ∧
    exec (.btst .w256 .unsigned 0 18) (loaded 0 2) = .next v ∧
    exec (.bclr .w256 .unsigned 0 17) (loaded 0 2) = .next t' ∧ exec (.btst .w256 .unsigned 0 18) t' = .next u' ∧
    exec (.hsb .w256 .unsigned 0) t = .next h := ⟨_, _, _, _, _, _, rfl, by decide +kernel, rfl, rfl, rfl, rfl, rfl, rfl⟩

theorem witness_CommandsChangeOnlyTheirDestinations : ∃ t,
    exec (.divmod .w256 .signed 3 4 0 1) (loaded 7 2) = .next t ∧
    (2 : RegNum) ∉ (Instr.divmod .w256 .signed 3 4 0 1).destinations ∧ 0x17F < 0x400 ∧
    (∀ n ∈ (Instr.divmod .w256 .signed 3 4 0 1).destinations, 0x17F / 0x80 ≠ n.val) ∧
    (Instr.divmod .w256 .signed 3 4 0 1).writesScalar = false := ⟨_, rfl, by decide, by decide, by decide, rfl⟩

/-- MULF, BSET at the last index of its width and BCLR at index 0 each change a register. -/
theorem witness_ResultsAreZeroAbove :
    (regAfter (.mulf .w256 .unsigned 2 0 0) (loaded 7 2) 2 ≠ some ((loaded 7 2).reg 2) ∧
      (Instr.mulf .w256 .unsigned 2 0 0).inPlace = false) ∧
    regAfter (.bset .w256 .unsigned 0 255) (loaded 7 2) 0 ≠ some ((loaded 7 2).reg 0) ∧
    regAfter (.bclr .w256 .unsigned 0 0) (loaded 7 2) 0 ≠ some ((loaded 7 2).reg 0) := by decide +kernel

theorem witness_ResultsDependOnTheLowBits_commands (a b : Nat) : ∃ t,
    (loaded a b).fault = 0 ∧ (loaded a b).finfo = 0 ∧ exec (.mod .w256 .signed 2 0 1) (loaded a b) = .next t :=
  ⟨_, rfl, rfl, rfl⟩
theorem witness_ResultsDependOnTheLowBits_operands :
    (∀ n ∈ (Instr.mod .w256 .signed 2 0 1).sources,
      (loaded 7 2).unsigned .w256 n = (loaded (2 ^ 256 + 7) (2 ^ 300 + 2)).unsigned .w256 n) ∧
    (Instr.mod .w256 .signed 2 0 1).inPlace = false ∧
    faultAfter (.mod .w256 .signed 2 0 1) (loaded 7 2) = some (0, 0) ∧
    (∀ n ∈ (Instr.bclr .w256 .signed 0 17).sources,
      (loaded 7 2).unsigned .w256 n = (loaded (2 ^ 256 + 7) (2 ^ 300 + 2)).unsigned .w256 n) ∧
    (Instr.bclr .w256 .signed 0 17).inPlace = true ∧
    faultAfter (.bclr .w256 .signed 0 17) (loaded 7 2) = some (0, 0) ∧
    (Instr.cmp .w256 .signed 0 1).writesScalar = true ∧
    faultAfter (.cmp .w256 .signed 0 1) (loaded 7 2) = some (0, 0) := by decide +kernel

/-- Each of the four values of FAULT is reached by a command word from a running block. -/
theorem witness_FaultCauses :
    (after (deliver (cmdWrite 0x10408000) (loaded 7 0))).map (fun t => t.fault) = some 0 ∧
    (after (deliver (cmdWrite 0x38408000) (loaded 7 0))).map (fun t => t.fault) = some 1 ∧
    (after (deliver (cmdWrite 0x60000100) (loaded 7 0))).map (fun t => t.fault) = some 2 ∧
    (after (deliver (cmdWrite 0x50208000) (loaded 7 0))).map (fun t => t.fault) = some 3 := by decide +kernel

theorem witness_FaultedBlock_acknowledged : ∃ t, (faultedBy 1 0x38408000).fault ≠ 0 ∧
    step { faultedBy 1 0x38408000 with pending := [.hostWrite 0x408 4 0] } = .next t := ⟨_, by decide, rfl⟩
theorem witness_FaultedBlock_reset : ∃ t, (faultedBy 3 0x78000000).fault ≠ 0 ∧
    step { faultedBy 3 0x78000000 with pending := [.reset] } = .next t := ⟨_, by decide, rfl⟩

theorem witness_Acknowledge : (faultedBy 1 0x38408000).fault = 1 ∧ (faultedBy 2 0x60000100).fault ≠ 1 ∧
    (loaded 7 2).fault ≠ 1 ∧ decode 0x38408000 = .ok (.mod .w256 .unsigned 2 0 1) := ⟨rfl, by decide, by decide, rfl⟩

theorem witness_StepKeepsTheFaultRecordTrue :
    ({ faultedBy 1 0x38408000 with pending := [.hostWrite 0x408 4 0] } : State).inv = true ∧
    ∃ t, step { faultedBy 1 0x38408000 with pending := [.hostWrite 0x408 4 0] } = .next t := ⟨by decide +kernel, _, rfl⟩

theorem witness_limb_algorithms_add_sub_neg : ∃ t u v, exec (.add .w512 .signed 2 0 1) (loaded 7 2) = .next t ∧
    exec (.sub .w512 .signed 2 0 1) (loaded 7 2) = .next u ∧ exec (.neg .w512 .signed 2 0) (loaded 7 2) = .next v :=
  ⟨_, _, _, rfl, rfl, rfl⟩
theorem witness_limb_algorithms_mul_div : ∃ m t u q r, exec (.mull .w512 .signed 2 0 1) (loaded 7 2) = .next m ∧
    exec (.mulf .w512 .unsigned 2 0 1) (loaded 7 2) = .next t ∧ exec (.mulf .w512 .signed 2 0 1) (loaded 7 2) = .next u ∧
    exec (.divmod .w512 .unsigned 2 3 0 1) (loaded 7 2) = .next q ∧
    exec (.divmod .w512 .signed 2 3 0 1) (loaded 7 2) = .next r := ⟨_, _, _, _, _, rfl, rfl, rfl, rfl, rfl⟩
theorem witness_limb_algorithms_shift_scan : ∃ t u a b c, exec (.shl .w512 .signed 2 0 13) (loaded 7 2) = .next t ∧
    exec (.shr .w512 .signed 2 0 13) (loaded 7 2) = .next u ∧ exec (.cmp .w512 .unsigned 0 1) (loaded 7 2) = .next a ∧
    exec (.cmp .w512 .signed 0 1) (loaded 7 2) = .next b ∧ exec (.hsb .w512 .signed 0) (loaded 7 2) = .next c :=
  ⟨_, _, _, _, _, rfl, rfl, rfl, rfl, rfl⟩
theorem witness_FromBytes : ∃ t, exec (.mov .w256 3 1) (loaded 0 (2 ^ 257 - 2)) = .next t := ⟨_, rfl⟩

theorem witness_NativeIntegers : 1 ≤ Config.defaultHost.nativeBytes ∧ Config.defaultHost.nativeBytes < 32 ∧
    (-2 ^ (8 * Config.defaultHost.nativeBytes - 1) : Int) ≤ -1 ∧
    (-1 : Int) < 2 ^ (8 * Config.defaultHost.nativeBytes - 1) ∧ (0 : Int) ≤ 2 ^ 63 - 1 ∧
    (2 ^ 63 - 1 : Int) < 2 ^ (8 * Config.defaultHost.nativeBytes - 1) ∧ (-1 : Int) < 0 := by decide

theorem witness_HexText_images : leValue (leBytes 32 0) = 0 ∧ leValue (leBytes 32 256) ≠ 0 ∧
    (leBytes 32 256).length = Width.w256.bytes := by simp [Width.bytes]
theorem witness_HexText_texts : (∀ c ∈ ['f', 'F', '9'], (digitValue c).isSome = true) ∧
    ¬ (∀ c ∈ ['0', 'x', '1'], (digitValue c).isSome = true) := by
  simp [digitValue]

end Sys2Proof.Tests
end

/-! PROOFS. The frame of every command (00_scope.md R5): its effect changes no wide register but its destinations, X only if
it is CMP, HSB or BTST, and nothing of the host's. -/

namespace Sys2Proof.Machine

/-! ## Frames of the shared effects -/

section Frame
variable (w : Width) (rd ra rb m : RegNum) (s : State)

@[simp] theorem reg_binary (f : Int → Int → Int) :
    (binary w rd ra rb f s).reg m =
      if m = rd then wideOf w.bits (f (unsignedOf w (s.reg ra)) (unsignedOf w (s.reg rb))) else s.reg m :=
  State.reg_writeV ..

@[simp] theorem x_binary (f : Int → Int → Int) : (binary w rd ra rb f s).x = s.x := rfl

@[simp] theorem reg_shiftLeft (n : Nat) :
    (shiftLeft w rd ra n s).reg m =
      if m = rd then wideOf w.bits ((unsignedOf w (s.reg ra) : Int) * 2 ^ n) else s.reg m :=
  State.reg_writeV ..

@[simp] theorem x_shiftLeft (n : Nat) : (shiftLeft w rd ra n s).x = s.x := rfl

/-- What neither a recorded fault nor the division itself changes, a dividing command leaves as it was. -/
theorem dividing_keeps {α : Type} (f : State → α) (cmd : Word) (sg : Signedness) {k : Int → Int → State → State}
    (hraise : f (raise .divisionByZero cmd s) = f s) (hk : ∀ a b, f (k a b s) = f s) :
    f (dividing cmd w sg ra rb k s) = f s := by
  obtain ⟨-, h⟩ | ⟨-, h⟩ := dividing_cases cmd w sg ra rb k s
  · rw [h, hraise]
  · rw [h, hk]

/-- What neither a recorded fault nor the bit operation itself changes, an indexing command leaves as it was. -/
theorem indexing_keeps {α : Type} (f : State → α) (cmd : Word) (i : Imm16) {k : Nat → State → State}
    (hraise : f (raise .indexOutOfRange cmd s) = f s) (hk : ∀ j, f (k j s) = f s) :
    f (indexing cmd w i k s) = f s := by
  obtain ⟨-, h⟩ | ⟨-, h⟩ := indexing_cases cmd w i k s
  · rw [h, hraise]
  · rw [h, hk]

end Frame

/-! ## Frames of every effect -/

theorem reg_effectOf_of_notMem {i : Instr} {n : RegNum} (h : n ∉ i.destinations) (s : State) :
    (effectOf i s).reg n = s.reg n := by
  cases i <;> simp only [Instr.destinations, List.mem_cons, List.not_mem_nil, or_false, not_or] at h
  case nop | cmp | hsb => rfl
  case neg | add | sub | mull | shl | shr | mov | zero => simp [effectOf, h]
  case mulf => simp only [effectOf]; split <;> simp [h]
  case divmod | mod | div =>
    exact dividing_keeps _ _ _ _ (·.reg n) _ _ rfl fun a b => by simp [reg_writeQuotientRemainder, h]
  case bset | bclr | btst => exact indexing_keeps _ _ (·.reg n) _ _ rfl fun j => by simp [h]

theorem x_effectOf_of_not_writesScalar {i : Instr} (h : i.writesScalar = false) (s : State) :
    (effectOf i s).x = s.x := by
  cases i
  case cmp | hsb | btst => cases h
  case nop | neg | add | sub | mull | shl | shr | mov | zero => rfl
  case mulf => simp only [effectOf]; split <;> rfl
  case divmod | mod | div => exact dividing_keeps _ _ _ _ State.x _ _ rfl fun a b => by simp
  case bset | bclr => exact indexing_keeps _ _ State.x _ _ rfl fun j => rfl

/-! ## Frames of every delivered command, faulted or running -/

theorem exec_reg_of_notMem {i : Instr} {s t : State} (h : exec i s = .next t) {n : RegNum}
    (hn : n ∉ i.destinations) : t.reg n = s.reg n := by
  obtain ⟨-, rfl⟩ | ⟨-, rfl⟩ := exec_cases h
  · rfl
  · exact reg_effectOf_of_notMem hn s

theorem exec_x_of_not_writesScalar {i : Instr} {s t : State} (h : exec i s = .next t)
    (hx : i.writesScalar = false) : t.x = s.x := by
  obtain ⟨-, rfl⟩ | ⟨-, rfl⟩ := exec_cases h
  · rfl
  · exact x_effectOf_of_not_writesScalar hx s

theorem exec_host {i : Instr} {s t : State} (h : exec i s = .next t) :
    t.pending = s.pending ∧ t.replies = s.replies := by
  obtain ⟨-, rfl⟩ | ⟨-, rfl⟩ := exec_cases h
  · exact ⟨rfl, rfl⟩
  · exact effectOf_host i s

/-- An operand byte of the window is a byte of the register whose 128 bytes it stands among (20_memory.md R32). -/
theorem exec_operandByte_of_notMem {i : Instr} {s t : State} (h : exec i s = .next t) {off : Nat}
    (hlt : off < 0x400) (hoff : ∀ n ∈ i.destinations, off / 0x80 ≠ n.val) :
    operandByte t off = operandByte s off := by
  have hval : (Fin.ofNat 8 (off / 0x80)).val = off / 0x80 := Nat.mod_eq_of_lt (by omega)
  have hn : Fin.ofNat 8 (off / 0x80) ∉ i.destinations := fun hm => hoff _ hm hval.symm
  rw [operandByte, operandByte, exec_reg_of_notMem h hn]

/-- Settles O41: each clause is the frame lemma of its field, and the host's fields never change. -/
theorem commandsChangeOnlyTheirDestinations : Obligations.CommandsChangeOnlyTheirDestinations :=
  fun _ _ _ h => ⟨fun _ => exec_reg_of_notMem h, fun _ => exec_operandByte_of_notMem h,
    exec_x_of_not_writesScalar h, exec_host h⟩

end Sys2Proof.Machine

/-! PROOFS. The state's values (10_state.md): the reset state, what a written register holds above its result (R12),
the invariant on FAULT, FINFO and X (R16 to R18), and that the low bits of its sources alone decide what a command does
(R11). -/

namespace Sys2Proof.Machine

/-! ## The low W bits of a register -/

/-- The unsigned value holds the low W bits and nothing else (10_state.md R11). -/
theorem unsignedOf_eq_iff {w : Width} {r r' : Wide} :
    unsignedOf w r = unsignedOf w r' ↔ ∀ j, j < w.bits → r.getLsbD j = r'.getLsbD j := by
  constructor
  · intro h j hj
    have hbit := congrArg (Nat.testBit · j) h
    simpa [testBit_unsignedOf, hj] using hbit
  · intro h
    refine Nat.eq_of_testBit_eq fun j => ?_
    by_cases hj : j < w.bits
    · simp [testBit_unsignedOf, hj, h j hj]
    · simp [testBit_unsignedOf, hj]

theorem valueOf_congr {w : Width} {r r' : Wide} (h : unsignedOf w r = unsignedOf w r') (sg : Signedness) :
    valueOf sg w r = valueOf sg w r' := by
  cases sg
  · simp only [valueOf, h]
  · simp only [valueOf, signedOf_eq, h]

theorem highestSetBit_congr {w : Width} {r r' : Wide} (h : unsignedOf w r = unsignedOf w r') :
    highestSetBit w r = highestSetBit w r' := by
  simp only [highestSetBit, h]

theorem unsignedOf_withBitSet_congr {w : Width} {r r' : Wide} (h : unsignedOf w r = unsignedOf w r') (k : Nat) :
    unsignedOf w (withBitSet r k) = unsignedOf w (withBitSet r' k) := by
  rw [unsignedOf_eq_iff] at h ⊢
  intro j hj
  have hj' := hj.trans_le w.bits_le
  rw [getLsbD_withBitSet _ _ _ hj', getLsbD_withBitSet _ _ _ hj', h j hj]

theorem unsignedOf_withBitClear_congr {w : Width} {r r' : Wide} (h : unsignedOf w r = unsignedOf w r') (k : Nat) :
    unsignedOf w (withBitClear r k) = unsignedOf w (withBitClear r' k) := by
  rw [unsignedOf_eq_iff] at h ⊢
  intro j hj
  have hj' := hj.trans_le w.bits_le
  rw [getLsbD_withBitClear _ _ _ hj', getLsbD_withBitClear _ _ _ hj', h j hj]

/-! ## Two runs of one command -/

/-- The two states, reached by the same command, hold the same results of it: the same fault record and, when no fault
is recorded, the same destinations (in the low W bits if the command works in place) and the same X if it writes X. -/
structure SameResults (i : Instr) (t t' : State) : Prop where
  fault : t.fault = t'.fault
  finfo : t.finfo = t'.finfo
  reg : t.fault = 0 → i.inPlace = false → ∀ n ∈ i.destinations, t.reg n = t'.reg n
  low : t.fault = 0 → i.inPlace = true → ∀ w, i.width = some w → ∀ n ∈ i.destinations,
    t.unsigned w n = t'.unsigned w n
  x : t.fault = 0 → i.writesScalar = true → t.x = t'.x

section SameResults
variable {i : Instr} {s s' t t' : State}

/-- A recorded fault is all there is to compare. -/
theorem SameResults.of_raise (c : FaultCause) (cmd : Word) : SameResults i (raise c cmd s) (raise c cmd s') := by
  have hc : c.code ≠ 0 := by cases c <;> decide
  exact ⟨rfl, rfl, fun h => absurd h hc, fun h => absurd h hc, fun h => absurd h hc⟩

theorem SameResults.of_whole (hf : t.fault = t'.fault) (hi : t.finfo = t'.finfo) (hp : i.inPlace = false)
    (hreg : ∀ n ∈ i.destinations, t.reg n = t'.reg n) (hx : i.writesScalar = true → t.x = t'.x) :
    SameResults i t t' :=
  ⟨hf, hi, fun _ _ => hreg, fun _ h => by simp [hp] at h, fun _ => hx⟩

theorem SameResults.of_inPlace (hf : t.fault = t'.fault) (hi : t.finfo = t'.finfo) (hp : i.inPlace = true)
    (hlow : ∀ w, i.width = some w → ∀ n ∈ i.destinations, t.unsigned w n = t'.unsigned w n)
    (hx : i.writesScalar = false) : SameResults i t t' :=
  ⟨hf, hi, fun _ h => by simp [hp] at h, fun _ _ => hlow, fun _ h => by simp [hx] at h⟩

/-- Whether a dividing command faults, and the values it divides, are the same for sources that agree. -/
theorem SameResults.of_dividing {w : Width} {ra rb : RegNum} (ha : unsignedOf w (s.reg ra) = unsignedOf w (s'.reg ra))
    (hb : unsignedOf w (s.reg rb) = unsignedOf w (s'.reg rb)) (cmd : Word) (sg : Signedness)
    {k : Int → Int → State → State} (hk : ∀ a b, SameResults i (k a b s) (k a b s')) :
    SameResults i (dividing cmd w sg ra rb k s) (dividing cmd w sg ra rb k s') := by
  obtain ⟨h, hs⟩ | ⟨h, hs⟩ := dividing_cases cmd w sg ra rb k s <;>
    obtain ⟨h', hs'⟩ | ⟨h', hs'⟩ := dividing_cases cmd w sg ra rb k s'
  · rw [hs, hs']
    exact .of_raise ..
  · exact absurd (hb ▸ h) h'
  · exact absurd (hb ▸ h') h
  · rw [hs, hs', valueOf_congr ha, valueOf_congr hb]
    exact hk ..

/-- Whether an indexing command faults is decided by the command alone. -/
theorem SameResults.of_indexing (cmd : Word) {w : Width} {n : Imm16} {k : Nat → State → State}
    (hk : n.toNat < w.bits → SameResults i (k n.toNat s) (k n.toNat s')) :
    SameResults i (indexing cmd w n k s) (indexing cmd w n k s') := by
  simp only [indexing]
  split
  · exact hk ‹_›
  · exact .of_raise ..

/-- A command has the same results in two running blocks with the same FINFO whose sources agree in the low W bits. -/
theorem effectOf_sameResults (hf : s.fault = s'.fault) (hi : s.finfo = s'.finfo)
    (h : ∀ w, i.width = some w → ∀ n ∈ i.sources, unsignedOf w (s.reg n) = unsignedOf w (s'.reg n)) :
    SameResults i (effectOf i s) (effectOf i s') := by
  cases i <;> simp only [Instr.width, Instr.sources, Option.some.injEq, forall_eq', List.forall_mem_cons,
    List.not_mem_nil, false_imp_iff, implies_true, and_true] at h
  case nop => exact .of_whole hf hi rfl nofun nofun
  case neg | add | sub | mull | shl | mov | zero =>
    exact .of_whole hf hi rfl (by simp [effectOf, Instr.destinations, h]) nofun
  case shr sg _ _ _ =>
    exact .of_whole hf hi rfl (by simp [effectOf, Instr.destinations, valueOf_congr h sg]) nofun
  case mulf sg _ _ _ =>
    simp only [effectOf]
    obtain ⟨ha, hb⟩ := h
    split
    · exact .of_whole hf hi rfl (by simp [Instr.destinations, valueOf_congr ha sg, valueOf_congr hb sg]) nofun
    · exact .of_raise ..
  case divmod | div =>
    obtain ⟨ha, hb⟩ := h
    refine .of_dividing ha hb _ _ fun a b => .of_whole (by simpa) (by simpa) rfl ?_ nofun
    simp [Instr.destinations, reg_writeQuotientRemainder]
  case mod =>
    simp only [effectOf]
    obtain ⟨ha, hb⟩ := h
    refine .of_dividing ha hb _ _ fun a b => .of_whole hf hi rfl ?_ nofun
    simp [Instr.destinations]
  case cmp sg _ _ =>
    obtain ⟨ha, hb⟩ := h
    exact .of_whole hf hi rfl nofun fun _ => by simp [effectOf, valueOf_congr ha sg, valueOf_congr hb sg]
  case hsb => exact .of_whole hf hi rfl nofun fun _ => by simp [effectOf, highestSetBit_congr h]
  case btst =>
    simp only [effectOf]
    refine .of_indexing _ fun hn => .of_whole hf hi rfl nofun fun _ => ?_
    simp [unsignedOf_eq_iff.1 h _ hn]
  case bset =>
    simp only [effectOf]
    refine .of_indexing _ fun _ => .of_inPlace hf hi rfl ?_ rfl
    simp [Instr.width, Instr.destinations, unsignedOf_withBitSet_congr h]
  case bclr =>
    simp only [effectOf]
    refine .of_indexing _ fun _ => .of_inPlace hf hi rfl ?_ rfl
    simp [Instr.width, Instr.destinations, unsignedOf_withBitClear_congr h]

end SameResults

/-- Settles O43: both blocks run the command's effect, and the effects have the same results. -/
theorem resultsDependOnTheLowBitsOfTheSourcesAlone : Obligations.ResultsDependOnTheLowBitsOfTheSourcesAlone := by
  intro i s s' t t' hs hs' hi hsrc ht ht'
  rw [exec_running i hs] at ht
  rw [exec_running i hs'] at ht'
  cases ht
  cases ht'
  obtain ⟨hfault, hfinfo, hreg, hlow, hx⟩ := effectOf_sameResults (hs.trans hs'.symm) hi hsrc
  exact ⟨hfault, hfinfo, hreg, hlow, hx⟩

/-! ## The words of the commands that can fault -/

theorem decode_encode_divmod (w : Width) (sg : Signedness) (rd re ra rb : RegNum) :
    decode (encode (.divmod w sg rd re ra rb)) = .ok (.divmod w sg rd re ra rb) := by
  have hz : zeroBitsClear (Operation.format .divmod) (regWord .divmod w sg rd ra rb re) = true := by
    simp only [zeroBitsClear_iff, Operation.format, Format.mustBeZero, List.mem_singleton, forall_eq, toNat_regWord]
    omega
  obtain ⟨-, -, hrd, hra, hrb, hre⟩ := fields_regWord .divmod w sg rd ra rb re
  rw [encode, decode_regWord (by decide) (by simp) hz, withOperands, hrd, hra, hrb, hre]

/-- A command with three registers leaves the must-be-zero bits of its format clear. -/
theorem zeroBitsClear_regWord_of_r3 {o : Operation} (ho : o.format = .r3) (w : Width) (sg : Signedness)
    (rd ra rb : RegNum) : zeroBitsClear o.format (regWord o w sg rd ra rb 0) = true := by
  simp only [ho, zeroBitsClear_iff, Format.mustBeZero, List.mem_singleton, forall_eq, toNat_regWord]
  omega

theorem decode_encode_mod (w : Width) (sg : Signedness) (rd ra rb : RegNum) :
    decode (encode (.mod w sg rd ra rb)) = .ok (.mod w sg rd ra rb) := by
  obtain ⟨-, -, hrd, hra, hrb, -⟩ := fields_regWord .mod w sg rd ra rb 0
  rw [encode, decode_regWord (by decide) (by simp) (zeroBitsClear_regWord_of_r3 rfl ..), withOperands, hrd, hra, hrb]

/-- A command on one bit of a destination leaves the must-be-zero bits of its format clear. -/
theorem zeroBitsClear_immWord_of_di {o : Operation} (ho : o.format = .di) (w : Width) (sg : Signedness) (rd : RegNum)
    (n : Imm16) : zeroBitsClear o.format (immWord o w sg rd 0 n) = true := by
  have hn := n.isLt
  simp only [ho, zeroBitsClear_iff, Format.mustBeZero, List.forall_mem_cons, List.mem_singleton, forall_eq,
    toNat_immWord]
  omega

theorem decode_encode_bset (w : Width) (sg : Signedness) (rd : RegNum) (n : Imm16) :
    decode (encode (.bset w sg rd n)) = .ok (.bset w sg rd n) := by
  obtain ⟨-, -, hrd, -, hn⟩ := fields_immWord .bset w sg rd 0 n
  rw [encode, decode_immWord (by decide) (by simp) (zeroBitsClear_immWord_of_di rfl ..), withOperands, hrd, hn]

theorem decode_encode_bclr (w : Width) (sg : Signedness) (rd : RegNum) (n : Imm16) :
    decode (encode (.bclr w sg rd n)) = .ok (.bclr w sg rd n) := by
  obtain ⟨-, -, hrd, -, hn⟩ := fields_immWord .bclr w sg rd 0 n
  rw [encode, decode_immWord (by decide) (by simp) (zeroBitsClear_immWord_of_di rfl ..), withOperands, hrd, hn]

theorem decode_encode_btst (w : Width) (sg : Signedness) (ra : RegNum) (n : Imm16) :
    decode (encode (.btst w sg ra n)) = .ok (.btst w sg ra n) := by
  have hz : zeroBitsClear (Operation.format .btst) (immWord .btst w sg 0 ra n) = true := by
    have hn := n.isLt
    simp only [zeroBitsClear_iff, Operation.format, Format.mustBeZero, List.forall_mem_cons, List.mem_singleton,
      forall_eq, toNat_immWord]
    omega
  obtain ⟨-, -, -, hra, hn⟩ := fields_immWord .btst w sg 0 ra n
  rw [encode, decode_immWord (by decide) (by simp) hz, withOperands, hra, hn]

/-- The last test of the decoder: full multiply at width 1024 is refused. -/
theorem decode_eq_fullMultiplyAt1024 {w : Word} (ho : field w 27 5 = Operation.code .mulf)
    (hw : field w 25 2 = Width.sel .w1024) (hz : zeroBitsClear (Operation.format .mulf) w = true) :
    decode w = .error .fullMultiplyAt1024 := by
  rw [decode, ho, Operation.ofCode_code, hw, Width.ofSel_sel]
  simp [hz]

/-- The term the block does not have has an illegal word (30_encoding.md R62 (e)). -/
theorem decode_encode_mulf_of_not_ok {w : Width} (h : fullMultiplyWidthOk w = false) (sg : Signedness)
    (rd ra rb : RegNum) : decode (encode (.mulf w sg rd ra rb)) = .error .fullMultiplyAt1024 := by
  obtain rfl : w = .w1024 := by
    cases w with
    | w1024 => rfl
    | w256 | w512 => cases h
  have hsel := (fields_regWord .mulf .w1024 sg rd ra rb 0).1
  exact decode_eq_fullMultiplyAt1024 (opField_regWord ..) hsel (zeroBitsClear_regWord_of_r3 rfl ..)

/-! ## The fault record -/

/-- The word is one that can raise the cause (60_exceptions.md R160). -/
def FaultCause.raisedBy : FaultCause → Word → Bool
  | .divisionByZero, cmd => isDivision cmd
  | .indexOutOfRange, cmd => isIndexOutOfRange cmd
  | .illegalCommand, cmd => isIllegal cmd

@[simp] theorem faultRecordOk_code (c : FaultCause) (cmd : Word) : faultRecordOk c.code cmd = c.raisedBy cmd := by
  cases c <;> simp [faultRecordOk, FaultCause.code, FaultCause.raisedBy]

theorem isDivision_of_decode {cmd : Word} {i : Instr} (h : decode cmd = .ok i)
    (hi : i.operation = .divmod ∨ i.operation = .mod) : isDivision cmd = true := by
  simpa [isDivision, h] using hi

theorem isIndexOutOfRange_of_bitIndexOf {cmd : Word} {n : Nat} {w : Width} (h : bitIndexOf cmd = some (n, w))
    (hn : w.bits ≤ n) : isIndexOutOfRange cmd = true := by
  simp [isIndexOutOfRange, h, hn]

theorem isIllegal_of_decode {cmd : Word} {r : Illegal} (h : decode cmd = .error r) : isIllegal cmd = true := by
  simp [isIllegal, h]

theorem faultRecordOk_raise {c : FaultCause} {cmd : Word} (h : c.raisedBy cmd = true) (s : State) :
    faultRecordOk (raise c cmd s).fault (raise c cmd s).finfo = true := by
  simpa using h

/-- A dividing command records its own word or leaves the record to the division, which does not touch it. -/
theorem faultRecordOk_dividing {cmd : Word} {s : State} {k : Int → Int → State → State}
    (hs : faultRecordOk s.fault s.finfo = true) (hcmd : isDivision cmd = true)
    (hf : ∀ a b, (k a b s).fault = s.fault) (hi : ∀ a b, (k a b s).finfo = s.finfo)
    (w : Width) (sg : Signedness) (ra rb : RegNum) :
    faultRecordOk (dividing cmd w sg ra rb k s).fault (dividing cmd w sg ra rb k s).finfo = true := by
  obtain ⟨-, h⟩ | ⟨-, h⟩ := dividing_cases cmd w sg ra rb k s
  · rw [h]
    exact faultRecordOk_raise (c := .divisionByZero) hcmd s
  · rwa [h, hf, hi]

theorem faultRecordOk_indexing {cmd : Word} {s : State} {w : Width} {n : Imm16} {k : Nat → State → State}
    (hs : faultRecordOk s.fault s.finfo = true) (hcmd : bitIndexOf cmd = some (n.toNat, w))
    (hf : ∀ j, (k j s).fault = s.fault) (hi : ∀ j, (k j s).finfo = s.finfo) :
    faultRecordOk (indexing cmd w n k s).fault (indexing cmd w n k s).finfo = true := by
  obtain ⟨hn, h⟩ | ⟨-, h⟩ := indexing_cases cmd w n k s
  · rw [h]
    exact faultRecordOk_raise (c := .indexOutOfRange) (isIndexOutOfRange_of_bitIndexOf hcmd hn) s
  · rwa [h, hf, hi]

/-- Every effect keeps the fault record true: the command word it records is one that raises the cause. -/
theorem faultRecordOk_effectOf (i : Instr) {s : State} (hs : faultRecordOk s.fault s.finfo = true) :
    faultRecordOk (effectOf i s).fault (effectOf i s).finfo = true := by
  cases i <;> simp only [effectOf]
  case nop | neg | add | sub | mull | shl | shr | cmp | hsb | mov | zero => exact hs
  case mulf w sg rd ra rb =>
    split
    · exact hs
    · next h =>
      have hcmd := decode_encode_mulf_of_not_ok (Bool.eq_false_iff.2 h) sg rd ra rb
      exact faultRecordOk_raise (c := .illegalCommand) (isIllegal_of_decode hcmd) s
  case divmod =>
    exact faultRecordOk_dividing hs (isDivision_of_decode (decode_encode_divmod ..) (.inl rfl))
      (by simp) (by simp) ..
  case div =>
    exact faultRecordOk_dividing hs (isDivision_of_decode (decode_encode_divmod ..) (.inl rfl))
      (by simp) (by simp) ..
  case mod =>
    exact faultRecordOk_dividing hs (isDivision_of_decode (decode_encode_mod ..) (.inr rfl))
      (fun _ _ => rfl) (fun _ _ => rfl) ..
  case bset =>
    exact faultRecordOk_indexing hs (by rw [bitIndexOf, decode_encode_bset]) (fun _ => rfl) (fun _ => rfl)
  case bclr =>
    exact faultRecordOk_indexing hs (by rw [bitIndexOf, decode_encode_bclr]) (fun _ => rfl) (fun _ => rfl)
  case btst =>
    exact faultRecordOk_indexing hs (by rw [bitIndexOf, decode_encode_btst]) (fun _ => rfl) (fun _ => rfl)

theorem faultRecordOk_acknowledge {s : State} (hs : faultRecordOk s.fault s.finfo = true) :
    faultRecordOk (acknowledge s).fault (acknowledge s).finfo = true := by
  unfold acknowledge
  split
  · rfl
  · exact hs

/-! ## The values X takes -/

theorem scalarOk_orderCode (o : Ordering) : scalarOk (orderCode o) = true := by cases o <;> rfl

theorem scalarOk_bitCode (b : Bool) : scalarOk (bitCode b) = true := by cases b <;> rfl

/-- A highest set bit is an index of the register, at most 1023 (46_bit_utilities.md R130). -/
theorem scalarOk_indexCode_highestSetBit (w : Width) (r : Wide) :
    scalarOk (indexCode (highestSetBit w r)) = true := by
  unfold highestSetBit
  split
  · rfl
  · next h =>
    have hlt : (unsignedOf w r).log2 < 1024 := ((Nat.log2_lt h).2 (unsignedOf_lt w r)).trans_le w.bits_le
    have hmod : (unsignedOf w r).log2 % 2 ^ 16 < 1024 := (Nat.mod_le ..).trans_lt hlt
    simp only [scalarOk, indexCode, BitVec.toNat_ofNat, hmod, decide_true, Bool.true_or]

theorem scalarOk_effectOf (i : Instr) {s : State} (hs : scalarOk s.x = true) : scalarOk (effectOf i s).x = true := by
  cases hx : i.writesScalar
  case false => rwa [x_effectOf_of_not_writesScalar hx]
  case true =>
    cases i <;> cases hx
    case cmp => exact scalarOk_orderCode _
    case hsb => exact scalarOk_indexCode_highestSetBit ..
    case btst w sg ra n =>
      simp only [effectOf]
      obtain ⟨-, h⟩ | ⟨-, h⟩ := indexing_cases (encode (.btst w sg ra n)) w n
        (fun k s => s.setX (bitCode (bitOf (s.reg ra) k))) s
      · rwa [h]
      · rw [h]
        exact scalarOk_bitCode _

/-! ## The invariant on FAULT, FINFO and X -/

theorem State.inv_iff (s : State) :
    s.inv = true ↔ faultRecordOk s.fault s.finfo = true ∧ scalarOk s.x = true := by
  simp [State.inv]

/-- Settles O49. -/
theorem faultRecordIsTrueAtReset : Obligations.FaultRecordIsTrueAtReset :=
  (State.inv_iff _).2 ⟨rfl, rfl⟩

theorem exec_keeps_inv {i : Instr} {s t : State} (hs : s.inv = true) (h : exec i s = .next t) : t.inv = true := by
  obtain ⟨-, rfl⟩ | ⟨-, rfl⟩ := exec_cases h
  · exact hs
  · obtain ⟨hrecord, hx⟩ := (State.inv_iff s).1 hs
    exact (State.inv_iff _).2 ⟨faultRecordOk_effectOf i hrecord, scalarOk_effectOf i hx⟩

/-- A word that does not decode is recorded as an illegal one, or discarded. -/
theorem issue_keeps_inv {w : Word} {s t : State} (hs : s.inv = true) (h : issue w s = .next t) : t.inv = true := by
  cases hd : decode w with
  | ok i => exact exec_keeps_inv hs (issue_of_decode hd s ▸ h)
  | error r =>
    obtain ⟨-, rfl⟩ | ⟨-, rfl⟩ := command_cases (issue_illegal hd s ▸ h)
    · exact hs
    · obtain ⟨-, hx⟩ := (State.inv_iff s).1 hs
      exact (State.inv_iff _).2 ⟨faultRecordOk_raise (c := .illegalCommand) (isIllegal_of_decode hd) s, hx⟩

theorem deliver_keeps_inv {e : Event} {s t : State} (hs : s.inv = true) (h : deliver e s = .next t) :
    t.inv = true := by
  obtain ⟨_, _, _, -, -, rfl⟩ | ⟨_, _, _, _, -, -, -, rfl⟩ | ⟨w, -, hw⟩ | ⟨_, _, -, -, rfl⟩ | ⟨_, -, rfl⟩ |
    ⟨-, rfl⟩ := deliver_cases h
  · exact hs
  · exact hs
  · exact issue_keeps_inv hs hw
  · exact hs
  · obtain ⟨hrecord, hx⟩ := (State.inv_iff s).1 hs
    exact (State.inv_iff _).2 ⟨faultRecordOk_acknowledge hrecord, by simpa using hx⟩
  · exact faultRecordIsTrueAtReset

/-- Settles O50: an idle step changes nothing, and every delivered event keeps the invariant. -/
theorem stepKeepsTheFaultRecordTrue : Obligations.StepKeepsTheFaultRecordTrue := by
  intro s t hs h
  obtain ⟨-, rfl⟩ | ⟨e, rest, -, h⟩ := step_cases h
  · exact hs
  · exact deliver_keeps_inv (s := { s with pending := rest }) hs h

/-! ## What a command writes -/

/-- The register image of an M-bit result is below `2^M`, whatever M is (10_state.md R12). -/
theorem toNat_wideOf_lt (m : Nat) (z : Int) : (wideOf m z).toNat < 2 ^ m := by
  rw [wideOf, BitVec.toNat_ofNat]
  exact (Nat.mod_le ..).trans_lt (enc_lt m z)

theorem State.reg_writeV_same (s : State) (n : RegNum) (m : Nat) (z : Int) :
    (s.writeV n m z).reg n = wideOf m z := by
  simp

theorem reg_writeQuotientRemainder_of_mem {rd re n : RegNum} (hn : n = rd ∨ n = re) (w : Width) (a b : Int)
    (s : State) : ∃ z, (writeQuotientRemainder w rd re a b s).reg n = wideOf w.bits z := by
  rw [reg_writeQuotientRemainder]
  by_cases hd : n = rd
  · exact ⟨_, if_pos hd⟩
  · exact ⟨_, (if_neg hd).trans (if_pos (hn.resolve_left hd))⟩

/-- A register to which the division writes an M-bit result is kept by a dividing command's fault and holds such a
result otherwise. -/
theorem reg_dividing {n : RegNum} {m : Nat} {k : Int → Int → State → State} {s : State}
    (hk : ∀ a b, ∃ z, (k a b s).reg n = wideOf m z) (cmd : Word) (w : Width) (sg : Signedness) (ra rb : RegNum) :
    (dividing cmd w sg ra rb k s).reg n = s.reg n ∨ ∃ z, (dividing cmd w sg ra rb k s).reg n = wideOf m z := by
  obtain ⟨-, h⟩ | ⟨-, h⟩ := dividing_cases cmd w sg ra rb k s
  · rw [h]
    exact .inl rfl
  · rw [h]
    exact .inr (hk ..)

/-- A destination of a command that does not work in place is kept, by a fault, or holds the image of a result of the
command's result bits. -/
theorem reg_effectOf_of_mem {i : Instr} (hp : i.inPlace = false) {n : RegNum} (hn : n ∈ i.destinations) (s : State) :
    (effectOf i s).reg n = s.reg n ∨ ∃ z, (effectOf i s).reg n = wideOf i.resultBits z := by
  cases i <;> simp only [Instr.destinations, List.mem_cons, List.not_mem_nil, or_false] at hn
  case neg | add | sub | mull | shl | shr | mov | zero =>
    subst hn
    exact .inr ⟨_, State.reg_writeV_same ..⟩
  case mulf =>
    subst hn
    simp only [effectOf]
    split
    · exact .inr ⟨_, State.reg_writeV_same ..⟩
    · exact .inl rfl
  case divmod =>
    simp only [effectOf]
    exact reg_dividing (fun _ _ => reg_writeQuotientRemainder_of_mem hn ..) ..
  case div =>
    simp only [effectOf]
    exact reg_dividing (fun _ _ => reg_writeQuotientRemainder_of_mem (.inl hn) ..) ..
  case mod =>
    subst hn
    exact reg_dividing (fun _ _ => ⟨_, State.reg_writeV_same ..⟩) ..
  case bset | bclr => cases hp

/-- What neither a recorded fault nor the operation on the command's own index changes, an indexing command keeps. -/
theorem indexing_keeps_of_index {α : Type} (f : State → α) (cmd : Word) (w : Width) {n : Imm16}
    {k : Nat → State → State} {s : State} (hraise : f (raise .indexOutOfRange cmd s) = f s)
    (hk : f (k n.toNat s) = f s) : f (indexing cmd w n k s) = f s := by
  obtain ⟨-, h⟩ | ⟨-, h⟩ := indexing_cases cmd w n k s
  · rw [h, hraise]
  · rw [h, hk]

/-- BSET and BCLR keep every bit of their register but the one their index names (46_bit_utilities.md R131, R132). -/
theorem getLsbD_effectOf_of_inPlace {i : Instr} {w : Width} {sg : Signedness} {rd : RegNum} {k : Imm16}
    (hi : i = .bset w sg rd k ∨ i = .bclr w sg rd k) {j : Nat} (hj : j < 1024) (hne : j ≠ k.toNat) (s : State) :
    ((effectOf i s).reg rd).getLsbD j = (s.reg rd).getLsbD j := by
  obtain rfl | rfl := hi
  · exact indexing_keeps_of_index (fun t => (t.reg rd).getLsbD j) _ _ rfl
      (by simp [getLsbD_withBitSet _ _ _ hj, hne])
  · exact indexing_keeps_of_index (fun t => (t.reg rd).getLsbD j) _ _ rfl
      (by simp [getLsbD_withBitClear _ _ _ hj, hne])

/-- Settles O42: only a destination changes, and what a running block's effect writes there is known. -/
theorem resultsAreZeroAboveTheirWidth : Obligations.ResultsAreZeroAboveTheirWidth := by
  intro i s t h n hchange
  have hn : n ∈ i.destinations := by
    by_contra hn
    exact hchange (exec_reg_of_notMem h hn)
  obtain ⟨-, rfl⟩ | ⟨-, rfl⟩ := exec_cases h
  · exact absurd rfl hchange
  · refine ⟨fun hp => ?_, fun w sg rd k hi => ⟨?_, fun j hj hne => getLsbD_effectOf_of_inPlace hi hj hne s⟩⟩
    · obtain hkept | ⟨z, hz⟩ := reg_effectOf_of_mem hp hn s
      · exact absurd hkept hchange
      · rw [hz]
        exact toNat_wideOf_lt ..
    · obtain rfl | rfl := hi <;> exact List.mem_singleton.1 hn

/-! ## The state after reset -/

/-- Settles O1: every register is the zero vector, and so is each of its bytes. -/
theorem resetStateIsAllZero : Obligations.ResetStateIsAllZero :=
  ⟨fun n k => by simp [byteOf], rfl, rfl, rfl⟩

end Sys2Proof.Machine

/-! PROOFS. The host window (20_memory.md): what each access does through the location it names, that an event neither
reads nor changes what is the host's (R42), and images loaded and read back byte by byte. -/

namespace Sys2Proof.Machine

/-! ## An access acts through the location it names -/

section Access
variable {off size v : Nat} {l : Location}

theorem deliver_hostRead_of_locate (h : locate off size = some l) (s : State) :
    deliver (.hostRead off size) s = .next (s.reply (readLocation l s)) := by
  simp [deliver, hostRead, h]

theorem deliver_hostWrite_of_locate (h : locate off size = some l) (hv : v < 256 ^ size) (s : State) :
    deliver (.hostWrite off size v) s = writeLocation l v s := by
  simp [deliver, hostWrite, h, hv]

/-- A control word takes every 32-bit value. -/
theorem deliver_controlWrite (h : locate off 4 = some l) (hv : v < 2 ^ 32) (s : State) :
    deliver (.hostWrite off 4 v) s = writeLocation l v s :=
  deliver_hostWrite_of_locate h (by omega) s

theorem deliver_hostRead_of_locate_eq_none (h : locate off size = none) (s : State) :
    deliver (.hostRead off size) s = .refused (.accessNotAdmitted off size) := by
  simp [deliver, hostRead, h]

theorem deliver_hostWrite_of_locate_eq_none (h : locate off size = none) (v : Nat) (s : State) :
    deliver (.hostWrite off size v) s = .refused (.accessNotAdmitted off size) := by
  simp [deliver, hostWrite, h]

theorem exists_location_of_hostRead {s t : State} (h : deliver (.hostRead off size) s = .next t) :
    ∃ l, locate off size = some l ∧ t = s.reply (readLocation l s) := by
  cases hl : locate off size with
  | none => simp [deliver_hostRead_of_locate_eq_none hl] at h
  | some l =>
    rw [deliver_hostRead_of_locate hl] at h
    exact ⟨l, rfl, (Host.Outcome.next.inj h).symm⟩

theorem exists_location_of_hostWrite {s t : State} (h : deliver (.hostWrite off size v) s = .next t) :
    ∃ l, locate off size = some l ∧ v < 256 ^ size ∧ writeLocation l v s = .next t := by
  cases hl : locate off size with
  | none => simp [deliver_hostWrite_of_locate_eq_none hl] at h
  | some l =>
    have hv : v < 256 ^ size := by
      by_contra hv
      simp [deliver, hostWrite, hl, hv] at h
    exact ⟨l, rfl, hv, (deliver_hostWrite_of_locate hl hv s).symm.trans h⟩

end Access

section OperandByte
variable (n : RegNum) {k : Nat} (hk : k < 128) (s : State)
include hk

theorem deliver_byteRead :
    deliver (.hostRead (0x80 * n.val + k) 1) s = .next (s.reply (.byte (byteOf (s.reg n) k))) :=
  deliver_hostRead_of_locate (locate_byte n hk) s

theorem deliver_byteWrite {v : Nat} (hv : v < 256) :
    deliver (.hostWrite (0x80 * n.val + k) 1 v) s =
      .next (s.setReg n (setByte (s.reg n) k (BitVec.ofNat 8 v))) :=
  deliver_hostWrite_of_locate (locate_byte n hk) (by omega) s

end OperandByte

/-! ## Words written to CMD -/

theorem exists_next_issue (w : Word) (s : State) : ∃ t, issue w s = .next t := by
  cases hd : decode w with
  | ok i => exact ⟨_, (issue_of_decode hd s).trans (exec_eq_command i s)⟩
  | error r => exact ⟨_, issue_illegal hd s⟩

theorem issue_faulted (w : Word) {s : State} (h : s.fault ≠ 0) : issue w s = .next s := by
  cases hd : decode w with
  | ok i => rw [issue_of_decode hd, exec_faulted i h]
  | error r => rw [issue_illegal hd, command_faulted h]

theorem issue_of_isIllegal {w : Word} (hw : isIllegal w = true) {s : State} (h : s.fault = 0) :
    issue w s = .next (raise .illegalCommand w s) := by
  cases hd : decode w with
  | ok i => simp [isIllegal, hd] at hw
  | error r => rw [issue_illegal hd, command_running h]

theorem exists_next_writeLocation (l : Location) (v : Nat) (s : State) : ∃ t, writeLocation l v s = .next t := by
  cases l with
  | cmd => exact exists_next_issue ..
  | operand | x | fault | finfo => exact ⟨_, rfl⟩

/-! ## An event neither reads nor changes what is the host's -/

section WithHost
variable {s t : State} (p : List Event) (q : List Reply)

theorem readLocation_withHost (l : Location) (s : State) :
    readLocation l { s with pending := p, replies := q } = readLocation l s := by
  cases l <;> rfl

theorem acknowledge_withHost (s : State) :
    acknowledge { s with pending := p, replies := q } = { acknowledge s with pending := p, replies := q } := by
  by_cases h : s.fault = FaultCause.divisionByZero.code <;> simp [acknowledge, h]

theorem command_withHost {f : State → State}
    (hf : f { s with pending := p, replies := q } = { f s with pending := p, replies := q })
    (h : command s f = .next t) :
    command { s with pending := p, replies := q } f = .next { t with pending := p, replies := q } := by
  obtain ⟨hs, rfl⟩ | ⟨hs, rfl⟩ := command_cases h
  · exact command_faulted (s := { t with pending := p, replies := q }) hs f
  · rw [← hf]
    exact command_running (s := { s with pending := p, replies := q }) hs f

theorem issue_withHost {w : Word} (h : issue w s = .next t) :
    issue w { s with pending := p, replies := q } = .next { t with pending := p, replies := q } := by
  cases hd : decode w with
  | ok i =>
    rw [issue_of_decode hd, exec_eq_command] at h ⊢
    exact command_withHost p q (effectOf_withHost i s p q) h
  | error r =>
    rw [issue_illegal hd] at h ⊢
    exact command_withHost p q rfl h

/-- The write to FAULT answers the acknowledge, the ignored writes the same state, a write to CMD what its word does. -/
theorem writeLocation_withHost {l : Location} {v : Nat} (h : writeLocation l v s = .next t) :
    writeLocation l v { s with pending := p, replies := q } = .next { t with pending := p, replies := q } := by
  cases l with
  | cmd => exact issue_withHost p q h
  | fault => cases h; exact congrArg _ (acknowledge_withHost p q s)
  | operand | x | finfo => cases h; rfl

end WithHost

theorem writeLocation_host {l : Location} {v : Nat} {s t : State} (h : writeLocation l v s = .next t) :
    t.pending = s.pending ∧ t.replies = s.replies := by
  have hsame : t = { t with pending := s.pending, replies := s.replies } :=
    Host.Outcome.next.inj (h.symm.trans (writeLocation_withHost s.pending s.replies h))
  rw [hsame]
  exact ⟨rfl, rfl⟩

/-- Whatever the host's script and its replies so far are, a delivered event leaves the script, appends the same replies
and gives the same block. -/
theorem deliver_withHost {e : Event} {s t : State} (h : deliver e s = .next t) :
    t.pending = s.pending ∧ ∃ r, t.replies = s.replies ++ r ∧ ∀ p q,
      deliver e { s with pending := p, replies := q } = .next { t with pending := p, replies := q ++ r } := by
  cases e with
  | hostRead off size =>
    obtain ⟨l, hl, rfl⟩ := exists_location_of_hostRead h
    refine ⟨rfl, [readLocation l s], rfl, fun p q => ?_⟩
    rw [deliver_hostRead_of_locate hl, readLocation_withHost]
    rfl
  | hostWrite off size v =>
    obtain ⟨l, hl, hv, hw⟩ := exists_location_of_hostWrite h
    obtain ⟨hp, hr⟩ := writeLocation_host hw
    refine ⟨hp, [], by simp [hr], fun p q => ?_⟩
    rw [deliver_hostWrite_of_locate hl hv, List.append_nil]
    exact writeLocation_withHost p q hw
  | reset =>
    cases h
    exact ⟨rfl, [], by simp, fun p q => by simp [deliver, resetBlock]⟩

/-- The block is all of the state but what is the host's. -/
theorem SameBlock.eq_withHost {s s' : State} (h : SameBlock s s') :
    s' = { s with pending := s'.pending, replies := s'.replies } := by
  obtain ⟨hv, hx, hf, hi⟩ := h
  rw [hv, hx, hf, hi]

/-- Settles O4: the other state is the first with the host's part exchanged, so `deliver_withHost` gives its step. -/
theorem blockStateFollowsFromBlockAndTransactionAlone : Obligations.BlockStateFollowsFromBlockAndTransactionAlone := by
  refine ⟨fun s e rest => step_pending, fun s s' t e hblock h => ?_⟩
  obtain ⟨hp, r, hr, hhost⟩ := deliver_withHost h
  have h' := hhost s'.pending s'.replies
  rw [← hblock.eq_withHost] at h'
  exact ⟨_, h', ⟨rfl, rfl, rfl, rfl⟩, hp, rfl, r, hr, rfl⟩

/-- Settles O6: the write replaces byte `k` of one register. -/
theorem hostByteWriteChangesOneByte : Obligations.HostByteWriteChangesOneByte := by
  intro s n k v hk hv
  refine ⟨_, deliver_byteWrite n hk s hv, ?_, fun m j _ hmj => ?_, onlyRegister_setReg ..⟩
  · simp [byteOf_setByte _ _ _ _ hk, Nat.mod_eq_of_lt hv]
  · by_cases hm : m = n
    · have hj : j ≠ k := hmj.resolve_left (not_not_intro hm)
      simp [hm, byteOf_setByte _ _ _ _ hk, hj]
    · simp [hm]

/-- Settles O7: an access has a next state exactly when it names a location. -/
theorem onlyTheWindowsAccessesAreAdmitted : Obligations.OnlyTheWindowsAccessesAreAdmitted := by
  intro s off size v hv
  rw [← locate_isSome_iff]
  cases hl : locate off size with
  | none =>
    exact ⟨nofun, fun _ =>
      ⟨deliver_hostRead_of_locate_eq_none hl s, deliver_hostWrite_of_locate_eq_none hl v s⟩⟩
  | some l =>
    refine ⟨fun _ => ⟨⟨_, deliver_hostRead_of_locate hl s⟩, ?_⟩, fun h => absurd rfl h⟩
    rw [deliver_hostWrite_of_locate hl hv]
    exact exists_next_writeLocation l v s

/-! ## Runs -/

theorem run_cons_of_next {e : Event} {s t : State} (h : deliver e s = .next t) (es : List Event) :
    run (e :: es) s = run es t := by
  rw [run, h]

theorem run_singleton (e : Event) (s : State) : run [e] s = deliver e s := by
  cases hd : deliver e s <;> simp [run, hd]

theorem run_append_of_next {es : List Event} {s t : State} (h : run es s = .next t) (es' : List Event) :
    run (es ++ es') s = run es' t := by
  induction es generalizing s with
  | nil => cases h; rfl
  | cons e es ih =>
    rw [run] at h
    cases hd : deliver e s with
    | next u =>
      rw [hd] at h
      exact (run_cons_of_next hd _).trans (ih h)
    | fault | refused => simp [hd] at h

theorem run_concat {es : List Event} {e : Event} {s t u : State} (hes : run es s = .next t)
    (he : deliver e t = .next u) : run (es ++ [e]) s = .next u :=
  (run_append_of_next hes [e]).trans (run_cons_of_next he [])

/-! ## Images -/

theorem loadImage_concat (n : RegNum) (img : List Byte) (b : Byte) :
    loadImage n (img ++ [b]) = loadImage n img ++ [.hostWrite (0x80 * n.val + img.length) 1 b.toNat] := by
  simp [loadImage, List.mapIdx_concat]

theorem readImage_succ (n : RegNum) (c : Nat) :
    readImage n (c + 1) = readImage n c ++ [.hostRead (0x80 * n.val + c) 1] := by
  simp [readImage, List.range_succ]

theorem OnlyRegister.refl (s : State) (n : RegNum) : OnlyRegister s s n :=
  ⟨fun _ _ => rfl, rfl, rfl, rfl, rfl, rfl⟩

theorem OnlyRegister.trans {s t u : State} {n : RegNum} (h : OnlyRegister s t n) (h' : OnlyRegister t u n) :
    OnlyRegister s u n := by
  obtain ⟨hv, hx, hf, hi, hp, hr⟩ := h
  obtain ⟨hv', hx', hf', hi', hp', hr'⟩ := h'
  exact ⟨fun m hm => (hv' m hm).trans (hv m hm), hx'.trans hx, hf'.trans hf, hi'.trans hi, hp'.trans hp,
    hr'.trans hr⟩

theorem getD_concat {α : Type} (l : List α) (a d : α) (k : Nat) :
    (l ++ [a]).getD k d = if k = l.length then a else l.getD k d := by
  grind

/-- Loading an image writes one register: the image's bytes, and the old bytes above them (20_memory.md R34). -/
theorem run_loadImage (n : RegNum) (img : List Byte) (h : img.length ≤ 128) (s : State) :
    ∃ t, run (loadImage n img) s = .next t ∧ OnlyRegister s t n ∧
      ∀ k, byteOf (t.reg n) k = img.getD k (byteOf (s.reg n) k) := by
  induction img using List.reverseRecOn with
  | nil => exact ⟨s, rfl, .refl s n, fun k => rfl⟩
  | append_singleton img b ih =>
    have hlt : img.length < 128 := by simpa using h
    obtain ⟨t, hrun, honly, hbytes⟩ := ih hlt.le
    have hwrite := run_concat hrun (deliver_byteWrite n hlt t b.isLt)
    rw [BitVec.ofNat_toNat, BitVec.setWidth_eq, ← loadImage_concat] at hwrite
    refine ⟨_, hwrite, honly.trans (onlyRegister_setReg ..), fun k => ?_⟩
    rw [State.reg_setReg, if_pos rfl, byteOf_setByte _ _ _ _ hlt, getD_concat, hbytes]

/-- Reading bytes back returns them in order and changes nothing else (20_memory.md R33). -/
theorem run_readImage (n : RegNum) {c : Nat} (h : c ≤ 128) (s : State) :
    run (readImage n c) s =
      .next { s with replies := s.replies ++ (List.range c).map fun k => .byte (byteOf (s.reg n) k) } := by
  induction c with
  | zero => simp [readImage, run]
  | succ c ih =>
    rw [readImage_succ, run_concat (ih (by omega)) (deliver_byteRead n (by omega) _)]
    simp [State.reply, List.range_succ]

/-- Settles O8: the load leaves a register whose bytes are the image's and then the old ones, and the reads return what
that register holds. -/
theorem loadedImageIsHeldAndReadBack : Obligations.LoadedImageIsHeldAndReadBack := by
  intro s n img hlen
  obtain ⟨t, hload, ⟨hv, hx, hf, hi, -, hr⟩, hbytes⟩ := run_loadImage n img hlen s
  have hheld : ∀ k, k < img.length → byteOf (t.reg n) k = img.getD k 0 := fun k hk => by
    rw [hbytes, List.getD_eq_getElem _ _ hk, List.getD_eq_getElem _ _ hk]
  have hkept : ∀ k, img.length ≤ k → k < 128 → byteOf (t.reg n) k = byteOf (s.reg n) k := fun k hk _ => by
    rw [hbytes, List.getD_eq_default _ _ hk]
  have hread : (List.range img.length).map (fun k => Reply.byte (byteOf (t.reg n) k)) = img.map .byte :=
    List.ext_getElem (by simp) fun k _ hk => by
      rw [List.length_map] at hk
      simp [hheld k hk, hk]
  have hrun := (run_append_of_next hload _).trans (run_readImage n hlen t)
  rw [hread, hr] at hrun
  exact ⟨_, hrun, rfl, hheld, hkept, hv, hx, hf, hi⟩

/-! ## The acknowledge -/

/-- Settles O48: the write is `acknowledge`, and the block it leaves running executes the next word. -/
theorem acknowledgeClearsDivisionByZeroAlone : Obligations.AcknowledgeClearsDivisionByZeroAlone := by
  refine ⟨deliver_hostRead_of_locate locate_fault, fun s v hv hs => ?_, fun s v hv hs => ?_⟩
  · have hack : deliver (.hostWrite 0x408 4 v) s = .next { s with fault := 0, finfo := 0 } :=
      (deliver_controlWrite locate_fault hv s).trans (congrArg _ (if_pos hs))
    refine ⟨hack, fun w i hd => ?_⟩
    rw [run_cons_of_next hack, run_singleton, deliver_cmdWrite, issue_of_decode hd]
  · exact (deliver_controlWrite locate_fault hv s).trans (congrArg _ (if_neg hs))

/-! ## Steps that issue a command -/

theorem decode_of_decodeTableWord {nbits w : Nat} {i : Instr} (h : decodeTableWord nbits w = some i) :
    decode (BitVec.ofNat 32 (w % 2 ^ nbits)) = .ok i := by
  cases hd : decode (BitVec.ofNat 32 (w % 2 ^ nbits)) <;> simp_all [decodeTableWord]

theorem step_cmdWrite {s : State} {rest : List Event} {w : Word} {i : Instr} (hp : s.pending = cmdWrite w :: rest)
    (hd : decode w = .ok i) : step s = exec i { s with pending := rest } := by
  rw [step_pending hp, deliver_cmdWrite, issue_of_decode hd]

/-- Settles O3: a table word is a CMD write put at the head of the script. -/
theorem stepRunsTheDecodedCommand : Obligations.StepRunsTheDecodedCommand :=
  ⟨fun _ _ _ _ => step_cmdWrite, fun _ _ _ _ h => step_cmdWrite rfl (decode_of_decodeTableWord h),
    fun _ => step_idle⟩

/-! ## What the host reads, and the writes to the control words -/

/-- Settles O5: each access through its location, and a write to CMD through `issue`. -/
theorem hostReadsReturnTheRegisters : Obligations.HostReadsReturnTheRegisters := by
  refine ⟨fun s n k hk => deliver_byteRead n hk s, deliver_hostRead_of_locate locate_cmd,
    deliver_hostRead_of_locate locate_x, deliver_hostRead_of_locate locate_finfo,
    fun s v hv => ⟨deliver_controlWrite locate_x hv s, deliver_controlWrite locate_finfo hv s⟩, fun s w => ?_⟩
  have hissue : deliver (.hostWrite 0x400 4 w.toNat) s = issue w s := deliver_cmdWrite w s
  rw [hissue]
  exact ⟨fun i hd => issue_of_decode hd s,
    fun hw hs => ⟨_, issue_of_isIllegal hw hs, faultRecorded_raise .illegalCommand w s⟩, issue_faulted w⟩

end Sys2Proof.Machine

/-! PROOFS. The encoding (30_encoding.md): decoder and encoder are inverse to each other on legal words (R51 to R61), the
illegal words (R62), the pseudo-commands (R66) and the commands that read their signedness (R67). -/

namespace Sys2Proof

/-! ## The tables of operations and widths (R56, R60) -/

theorem Operation.exists_code {n : Nat} (h : n ≤ 14) : ∃ o : Operation, n = o.code := by
  cases ho : Operation.ofCode n with
  | none => exact absurd (Operation.ofCode_eq_none.1 ho) (by omega)
  | some o => exact ⟨o, Operation.code_of_ofCode ho⟩

theorem Width.exists_sel {n : Nat} (h : n ≤ 2) : ∃ wd : Width, n = wd.sel := by
  interval_cases n
  · exact ⟨.w256, rfl⟩
  · exact ⟨.w512, rfl⟩
  · exact ⟨.w1024, rfl⟩

theorem Operation.code_eq_zero_iff {o : Operation} : o.code = 0 ↔ o = .nop := by
  cases o <;> decide

theorem Operation.code_eq_five_iff {o : Operation} : o.code = 5 ↔ o = .mulf := by
  cases o <;> decide

theorem Width.sel_eq_two_iff {wd : Width} : wd.sel = 2 ↔ wd = .w1024 := by
  cases wd <;> decide

theorem fullMultiplyWidthOk_iff {w : Width} : fullMultiplyWidthOk w = true ↔ w ≠ .w1024 := by
  cases w <;> decide

end Sys2Proof

namespace Sys2Proof.Machine

/-! ## The word of a well-formed instruction (R51, R52, R60) -/

/-- A shift by an immediate leaves the must-be-zero bits of its format clear. -/
theorem zeroBitsClear_immWord_of_ri {o : Operation} (ho : o.format = .ri) (w : Width) (sg : Signedness)
    (rd ra : RegNum) (n : Imm16) : zeroBitsClear o.format (immWord o w sg rd ra n) = true := by
  have hn := n.isLt
  simp only [ho, zeroBitsClear_iff, Format.mustBeZero, List.mem_singleton, forall_eq, toNat_immWord]
  omega

/-- The encoder leaves the must-be-zero bits of the command's format clear (R52). -/
theorem zeroBitsClear_encode (i : Instr) : zeroBitsClear i.operation.format (encode i) = true := by
  cases i with
  | nop => rfl
  | add | sub | mull | mulf | mod | zero => exact zeroBitsClear_regWord_of_r3 rfl ..
  | bset | bclr => exact zeroBitsClear_immWord_of_di rfl ..
  | neg | divmod | div | cmp | hsb =>
    simp only [zeroBitsClear_iff, Instr.operation, Operation.format, Format.mustBeZero, encode, toNat_regWord,
      List.forall_mem_cons, List.not_mem_nil, false_imp_iff, implies_true, and_true]
    omega
  | shl | shr | mov => exact zeroBitsClear_immWord_of_ri rfl ..
  | btst _ _ _ n =>
    have hn := n.isLt
    simp only [zeroBitsClear_iff, Instr.operation, Operation.format, Format.mustBeZero, encode, toNat_immWord,
      List.forall_mem_cons, List.not_mem_nil, false_imp_iff, implies_true, and_true]
    omega

theorem encode_expand (i : Instr) : encode i.expand = encode i := by
  cases i <;> rfl

theorem decode_encode_of_wf {i : Instr} (h : i.wf = true) : decode (encode i) = .ok i.expand := by
  have hz := zeroBitsClear_encode i
  cases i <;> simp only [encode, Instr.operation] at hz ⊢
  case nop => rfl
  case mulf w _ _ _ _ =>
    have hw : w ≠ .w1024 := fullMultiplyWidthOk_iff.1 h
    rw [decode_regWord (by decide) (by simp [hw]) hz]
    simp only [withOperands, fields_regWord, Instr.expand]
  case neg | add | sub | mull | divmod | mod | cmp | hsb | div | zero =>
    rw [decode_regWord (by decide) (by simp) hz]
    simp only [withOperands, fields_regWord, Instr.expand]
  case shl | shr | bset | bclr | btst | mov =>
    rw [decode_immWord (by decide) (by simp) hz]
    simp only [withOperands, fields_immWord, Instr.expand]

/-- Settles O10: the word's fields are the instruction's, and the one ill-formed term is full multiply at width 1024. -/
theorem everyInstructionIsReadBackFromItsWord : Obligations.EveryInstructionIsReadBackFromItsWord := by
  refine fun i => ⟨decode_encode_of_wf, fun h => ?_⟩
  cases i with
  | mulf => exact decode_encode_mulf_of_not_ok h ..
  | _ => cases h

/-! ## The instruction of a legal word (R51, R61) -/

theorem zero_eq_regField {w : Word} {lo : Nat} (h : w.toNat / 2 ^ lo % 8 = 0) : (0 : RegNum) = regField w lo := by
  rw [Fin.ext_iff, val_regField, h]
  rfl

section Legal
variable {w : Word} {o : Operation} {wd : Width} (ho : field w 27 5 = o.code) (hw : field w 25 2 = wd.sel)
include ho hw

/-- A word with its low 12 bits clear is the register-format word of its fields. -/
theorem regWord_of_fields {rd ra rb re : RegNum} (hrd : rd = regField w 21) (hra : ra = regField w 18)
    (hrb : rb = regField w 15) (hre : re = regField w 12) (hz : w.toNat % 2 ^ 12 = 0) :
    regWord o wd (.ofSgn (field w 24 1)) rd ra rb re = w := by
  have hlt := w.isLt
  rw [field_eq] at ho hw
  apply BitVec.eq_of_toNat_eq
  rw [toNat_regWord, Signedness.sgn_ofSgn (by rw [field_eq]; omega), field_eq, hrd, hra, hrb, hre]
  simp only [val_regField]
  omega

/-- A word with bits 17 and 16 clear is the immediate-format word of its fields. -/
theorem immWord_of_fields {rd ra : RegNum} (hrd : rd = regField w 21) (hra : ra = regField w 18)
    (hz : w.toNat / 2 ^ 16 % 2 ^ 2 = 0) :
    immWord o wd (.ofSgn (field w 24 1)) rd ra (immField w) = w := by
  have hlt := w.isLt
  rw [field_eq] at ho hw
  apply BitVec.eq_of_toNat_eq
  rw [toNat_immWord, Signedness.sgn_ofSgn (by rw [field_eq]; omega), field_eq, hrd, hra]
  simp only [val_regField, toNat_immField]
  omega

/-- A word whose must-be-zero bits are clear is the word of the command read from its fields. -/
theorem encode_withOperands (hn : o ≠ .nop) (hz : zeroBitsClear o.format w = true) :
    encode (withOperands o wd (.ofSgn (field w 24 1)) w) = w := by
  rw [zeroBitsClear_iff] at hz
  cases o <;> simp only [Operation.format, Format.mustBeZero, List.forall_mem_cons, List.not_mem_nil,
    false_imp_iff, implies_true, and_true] at hz
  case nop => exact absurd rfl hn
  case neg =>
    exact regWord_of_fields ho hw rfl rfl (zero_eq_regField (by omega)) (zero_eq_regField (by omega)) (by omega)
  case add | sub | mull | mulf | mod =>
    exact regWord_of_fields ho hw rfl rfl rfl (zero_eq_regField (by omega)) (by omega)
  case divmod => exact regWord_of_fields ho hw rfl rfl rfl rfl (by omega)
  case cmp =>
    exact regWord_of_fields ho hw (zero_eq_regField (by omega)) rfl rfl (zero_eq_regField (by omega)) (by omega)
  case hsb =>
    exact regWord_of_fields ho hw (zero_eq_regField (by omega)) rfl (zero_eq_regField (by omega))
      (zero_eq_regField (by omega)) (by omega)
  case shl | shr => exact immWord_of_fields ho hw rfl rfl (by omega)
  case bset | bclr => exact immWord_of_fields ho hw rfl (zero_eq_regField (by omega)) (by omega)
  case btst => exact immWord_of_fields ho hw (zero_eq_regField (by omega)) rfl (by omega)

end Legal

theorem expand_withOperands (o : Operation) (wd : Width) (sg : Signedness) (w : Word) :
    (withOperands o wd sg w).expand = withOperands o wd sg w := by
  cases o <;> rfl

theorem wf_withOperands {o : Operation} {wd : Width} (hm : ¬ (o = .mulf ∧ wd = .w1024)) (sg : Signedness) (w : Word) :
    (withOperands o wd sg w).wf = true := by
  cases o with
  | mulf => exact fullMultiplyWidthOk_iff.2 fun h => hm ⟨rfl, h⟩
  | _ => rfl

/-- Settles O11: an accepted word is 0 or the word of the command read from its fields. -/
theorem everyLegalWordIsTheWordOfItsInstruction : Obligations.EveryLegalWordIsTheWordOfItsInstruction := by
  intro w i h
  obtain ⟨rfl, rfl⟩ | ⟨o, wd, hn, ho, hw, hz, hm, rfl⟩ := decode_ok_cases h
  · exact ⟨rfl, rfl, rfl⟩
  · exact ⟨encode_withOperands ho hw hn hz, wf_withOperands hm .., expand_withOperands ..⟩

/-! ## The illegal words (R62) -/

/-- A bit range is zero when each of its bits is. -/
theorem field_eq_zero_iff (w : Word) (lo len : Nat) :
    field w lo len = 0 ↔ ∀ i, lo ≤ i → i < lo + len → w.getLsbD i = false := by
  have hvec : field w lo len = 0 ↔ w.extractLsb' lo len = 0#len := by simp [field, BitVec.toNat_eq]
  rw [hvec]
  constructor
  · intro h i hlo hhi
    have hbit := congrArg (BitVec.getLsbD · (i - lo)) h
    have hlt : i - lo < len := by omega
    simpa [BitVec.getLsbD_extractLsb', hlt, Nat.add_sub_cancel' hlo] using hbit
  · intro h
    refine BitVec.eq_of_getLsbD_eq fun j hj => ?_
    simp [BitVec.getLsbD_extractLsb', h (lo + j) (by omega) (by omega)]

theorem and_eq_zero_iff_getLsbD (w m : Word) :
    w &&& m = 0 ↔ ∀ i : Fin 32, m.getLsbD i = true → w.getLsbD i = false := by
  constructor
  · intro h i hm
    have hbit := congrArg (BitVec.getLsbD · i) h
    simpa only [BitVec.getLsbD_and, hm, Bool.and_true, BitVec.ofNat_eq_ofNat, BitVec.getLsbD_zero] using hbit
  · intro h
    refine BitVec.eq_of_getLsbD_eq fun i hi => ?_
    cases hm : m.getLsbD i with
    | false => simp [hm]
    | true => simp [h ⟨i, hi⟩ hm]

/-- The mask of R61 has the bits of the ranges of R52. -/
theorem getLsbD_mustBeZeroMask (o : Operation) : ∀ i : Fin 32, (mustBeZeroMask o.code).getLsbD i = true ↔
    ∃ r ∈ o.format.mustBeZero, r.1 ≤ i.val ∧ i.val < r.1 + r.2 := by
  cases o <;> decide

/-- The decoder's test of the bit ranges of R52 is the test of R61 with the operation's mask. -/
theorem zeroBitsClear_iff_mask (o : Operation) (w : Word) :
    zeroBitsClear o.format w = true ↔ w &&& mustBeZeroMask o.code = 0 := by
  simp only [zeroBitsClear, List.all_eq_true, beq_iff_eq, field_eq_zero_iff, and_eq_zero_iff_getLsbD,
    getLsbD_mustBeZeroMask]
  constructor
  · rintro h i ⟨r, hr, hlo, hhi⟩
    exact h r hr i hlo hhi
  · intro h r hr i hlo hhi
    by_cases hi : i < 32
    · exact h ⟨i, hi⟩ ⟨r, hr, hlo, hhi⟩
    · exact BitVec.getLsbD_of_ge w i (by omega)

/-- The words the decoder accepts (R61 steps 2 to 6), read from the word as a number and with the masks of R61. -/
theorem isIllegal_eq_false_iff (w : Word) :
    isIllegal w = false ↔ w = 0 ∨
      (1 ≤ w.toNat / 2 ^ 27 ∧ w.toNat / 2 ^ 27 ≤ 14 ∧ w.toNat / 2 ^ 25 % 4 ≤ 2 ∧
        w &&& mustBeZeroMask (w.toNat / 2 ^ 27) = 0 ∧ ¬ (w.toNat / 2 ^ 27 = 5 ∧ w.toNat / 2 ^ 25 % 4 = 2)) := by
  have hop : field w 27 5 = w.toNat / 2 ^ 27 := by
    have hlt := w.isLt
    rw [field_eq]
    omega
  have hsel : field w 25 2 = w.toNat / 2 ^ 25 % 4 := field_eq w 25 2
  rw [← hop, ← hsel]
  constructor
  · intro h
    cases hd : decode w with
    | error r => simp [isIllegal_of_decode hd] at h
    | ok i =>
      obtain ⟨rfl, -⟩ | ⟨o, wd, hn, ho, hw, hz, hm, -⟩ := decode_ok_cases hd
      · exact .inl rfl
      · have hpos : o.code ≠ 0 := mt Operation.code_eq_zero_iff.1 hn
        rw [ho, hw, Operation.code_eq_five_iff, Width.sel_eq_two_iff]
        exact .inr ⟨by omega, o.code_le, wd.sel_le, (zeroBitsClear_iff_mask o w).1 hz, hm⟩
  · rintro (rfl | ⟨hpos, hle, hw, hz, hm⟩)
    · rfl
    · obtain ⟨o, ho⟩ := Operation.exists_code hle
      obtain ⟨wd, hwd⟩ := Width.exists_sel hw
      rw [ho] at hpos hz
      rw [ho, hwd, Operation.code_eq_five_iff, Width.sel_eq_two_iff] at hm
      have hn : o ≠ .nop := fun hnop => by simp [hnop, Operation.code] at hpos
      rw [isIllegal, decode_eq_ok ho hn hwd ((zeroBitsClear_iff_mask o w).2 hz) hm]

/-- Settles O12: the listed words are the complement of the accepted ones, and only 0 is the word of NOP. -/
theorem illegalWordsAreExactlyTheListed : Obligations.IllegalWordsAreExactlyTheListed := by
  refine ⟨fun w => ?_, fun w s hw hs => ?_, fun w => ⟨fun h => ?_, fun h => h ▸ rfl⟩⟩
  · rw [← Bool.not_eq_false, isIllegal_eq_false_iff]
    by_cases h0 : w = 0
    · subst h0
      decide
    · by_cases hz : w &&& mustBeZeroMask (w.toNat / 2 ^ 27) = 0
      · simp only [h0, hz, ne_eq, not_true, not_false_eq_true, true_and, and_true, false_or]
        omega
      · simp only [h0, hz, ne_eq, false_and, and_false, or_false, not_false_eq_true, true_or, or_true]
  · exact ⟨_, (deliver_cmdWrite w s).trans (issue_of_isIllegal hw hs), faultRecorded_raise .illegalCommand w s⟩
  · exact (everyLegalWordIsTheWordOfItsInstruction w .nop h).1.symm

/-! ## The pseudo-commands (R66) -/

theorem exec_expand (i : Instr) (s : State) : exec i.expand s = exec i s := by
  cases i <;> rfl

/-- Settles O13: MOV writes `U_W * 2^0`, ZERO a difference of equals. -/
theorem pseudoCommandsAreTheirExpansions : Obligations.PseudoCommandsAreTheirExpansions := by
  refine ⟨fun i s => ⟨(encode_expand i).symm, (exec_expand i s).symm⟩, fun s w rd ra hs => ?_, fun s rd hs => ?_⟩
  · refine ⟨_, exec_running _ hs, ?_, onlyRegister_writeV ..⟩
    simp only [effectOf, reg_shiftLeft, if_true, pow_zero, mul_one, toNat_wideOf_bits, enc_natCast, unsignedOf,
      Nat.mod_mod]
  · refine ⟨_, exec_running _ hs, ?_, onlyRegister_writeV ..⟩
    simp [effectOf, wideOf, enc]

/-! ## The signedness (R67) -/

/-- The command word decides nothing of a command on one bit but what FINFO records. -/
theorem indexing_word_eq (cmd cmd' : Word) (w : Width) (n : Imm16) (k : Nat → State → State) (s : State) :
    (indexing cmd w n k s).v = (indexing cmd' w n k s).v ∧ (indexing cmd w n k s).x = (indexing cmd' w n k s).x ∧
      (indexing cmd w n k s).fault = (indexing cmd' w n k s).fault := by
  unfold indexing
  split
  · exact ⟨rfl, rfl, rfl⟩
  · exact ⟨rfl, rfl, rfl⟩

theorem command_indexing_word_eq {cmd cmd' : Word} {w : Width} {n : Imm16} {k : Nat → State → State} {s t t' : State}
    (h : command s (indexing cmd w n k) = .next t) (h' : command s (indexing cmd' w n k) = .next t') :
    t.v = t'.v ∧ t.x = t'.x ∧ t.fault = t'.fault := by
  obtain ⟨hs, rfl⟩ | ⟨hs, rfl⟩ := command_cases h <;> obtain ⟨hs', rfl⟩ | ⟨hs', rfl⟩ := command_cases h'
  · exact ⟨rfl, rfl, rfl⟩
  · exact absurd hs' hs
  · exact absurd hs hs'
  · exact indexing_word_eq ..

/-- A running block in which V0 holds the 256-bit pattern that is `2^256 - 1` unsigned and -1 signed, and V1 holds 2. -/
def minusOneAndTwo : State := (State.reset.setReg 0 (BitVec.ofNat 1024 (2 ^ 256 - 1))).setReg 1 2

/-- Two commands that end differently in that block are two commands told apart by a state. -/
theorem exists_state_of_minusOneAndTwo {i j : Instr} {Differ : State → State → Prop}
    (h : Differ (effectOf i minusOneAndTwo) (effectOf j minusOneAndTwo)) :
    ∃ s t t', exec i s = .next t ∧ exec j s = .next t' ∧ Differ t t' :=
  ⟨_, _, _, exec_running i rfl, exec_running j rfl, h⟩

/-- Settles O14: six meanings do not look at the signedness and three only in the word a fault records. The other five
read V0 as `2^256 - 1` or as -1: products `2^257 - 2` and -2, quotients `2^255 - 1` and 0, remainders 1 and -1, shifted
values `2^255 - 1` and -1, orders above and below 2. -/
theorem signednessMattersToFiveCommandsOnly : Obligations.SignednessMattersToFiveCommandsOnly := by
  refine ⟨fun s w rd ra rb i sg sg' => ⟨rfl, rfl, rfl, rfl, rfl, rfl, ?_⟩, ?_, ?_, ?_, ?_, ?_⟩
  · rintro t t' (⟨h, h'⟩ | ⟨h, h'⟩ | ⟨h, h'⟩) <;> exact command_indexing_word_eq h h'
  all_goals exact exists_state_of_minusOneAndTwo (by decide +kernel)

end Sys2Proof.Machine

/-! PROOFS. The host-side construction of byte images (40_storage_construction.md): a native integer stored and read back
(R72, R75), and the conversion between widths (R73), which is what MOV does (R66). -/

namespace Sys2Proof.Machine

/-! ## The values of byte lists -/

theorem two_pow_eight_mul (n : Nat) : 2 ^ (8 * n) = 256 ^ n := pow_mul 2 8 n

theorem two_pow_bits_eq_pow_bytes (w : Width) : 2 ^ w.bits = 256 ^ w.bytes := by
  rw [← Width.eight_bytes, two_pow_eight_mul]

theorem leValue_append (a b : List Byte) : leValue (a ++ b) = leValue a + 256 ^ a.length * leValue b := by
  induction a with
  | nil => simp [leValue]
  | cons x xs ih =>
    simp only [List.cons_append, leValue, List.length_cons, ih]
    ring

theorem leValue_replicate_zero (n : Nat) : leValue (List.replicate n 0x00) = 0 := by
  induction n with
  | zero => rfl
  | succ n ih => rw [List.replicate_succ, leValue, ih]; rfl

theorem leValue_replicate_ones (n : Nat) : leValue (List.replicate n 0xFF) + 1 = 256 ^ n := by
  induction n with
  | zero => rfl
  | succ n ih =>
    have hff : (0xFF : Byte).toNat = 255 := rfl
    rw [List.replicate_succ, leValue, hff, pow_succ, ← ih]
    ring

/-- Cutting a byte list off, or filling it up with zeros, at `n` bytes keeps the `n` low bytes of its value
(40_storage_construction.md R73). -/
theorem map_getD_range_eq_leBytes (n : Nat) (src : List Byte) :
    ((List.range n).map fun k => src.getD k 0) = leBytes n (leValue src) := by
  induction n generalizing src with
  | zero => rfl
  | succ n ih =>
    rw [List.range_succ_eq_map, List.map_cons, List.map_map]
    cases src with
    | nil => simpa [leBytes, leValue, Function.comp_def] using ih []
    | cons b bs =>
      have hb := b.isLt
      have hlow : BitVec.ofNat 8 (b.toNat + 256 * leValue bs) = b := BitVec.eq_of_toNat_eq (by simp; omega)
      have hhigh : (b.toNat + 256 * leValue bs) / 256 = leValue bs := by omega
      simpa [leBytes, leValue, Function.comp_def, hlow, hhigh] using ih bs

/-! ## The conversion between widths (R73) -/

theorem fromBytes_eq_leBytes (w : Width) (src : List Byte) : fromBytes w src = leBytes w.bytes (leValue src) :=
  map_getD_range_eq_leBytes w.bytes src

@[simp] theorem length_fromBytes (w : Width) (src : List Byte) : (fromBytes w src).length = w.bytes := by
  rw [fromBytes_eq_leBytes, length_leBytes]

@[simp] theorem leValue_fromBytes (w : Width) (src : List Byte) :
    leValue (fromBytes w src) = leValue src % 2 ^ w.bits := by
  rw [fromBytes_eq_leBytes, leValue_leBytes, two_pow_bits_eq_pow_bytes]

/-- The whole register's value is its value at the widest width. -/
theorem unsignedOf_eq_mod_unsignedOf_w1024 (w : Width) (r : Wide) :
    unsignedOf w r = unsignedOf .w1024 r % 2 ^ w.bits :=
  (Nat.mod_mod_of_dvd r.toNat (Nat.pow_dvd_pow 2 (show w.bits ≤ Width.w1024.bits from w.bits_le))).symm

theorem unsignedOf_mov {s t : State} {w : Width} {rd ra : RegNum} (hs : s.fault = 0)
    (h : exec (.mov w rd ra) s = .next t) : unsignedOf w (t.reg rd) = unsignedOf w (s.reg ra) := by
  rw [exec_running _ hs] at h
  cases h
  simp [effectOf, Nat.mod_eq_of_lt (unsignedOf_lt w (s.reg ra))]

/-- Settles O57: both images have N bytes and the value of the source register modulo `2^W`. -/
theorem fromBytesIsTruncationOrZeroPaddingAndIsMov : Obligations.FromBytesIsTruncationOrZeroPaddingAndIsMov := by
  refine ⟨fun w src => ⟨length_fromBytes w src, leValue_fromBytes w src⟩, fun s t w rd ra hs h => ?_⟩
  refine leValue_inj (by simp) ?_
  rw [leValue_imageOf, unsignedOf_mov hs h, leValue_fromBytes, leValue_imageOf, unsignedOf_eq_mod_unsignedOf_w1024]

/-! ## Two's complement -/

theorem enc_of_nonneg {m : Nat} {z : Int} (h0 : 0 ≤ z) (h : z < 2 ^ m) : (enc m z : Int) = z := by
  rw [enc_cast, Int.emod_eq_of_lt h0 h]

theorem enc_of_neg {m : Nat} {z : Int} (h : -2 ^ m ≤ z) (h0 : z < 0) : (enc m z : Int) = z + 2 ^ m := by
  rw [enc_cast, ← Int.add_emod_right, Int.emod_eq_of_lt (by omega) (by omega)]

/-- `z` is an integer of the host's native type of `n` bytes (40_storage_construction.md R72). -/
structure IsNative (n : Nat) (z : Int) : Prop where
  bytes_pos : 0 < n
  ge : -2 ^ (8 * n - 1) ≤ z
  lt : z < 2 ^ (8 * n - 1)

theorem IsNative.neg_two_pow_le {n m : Nat} {z : Int} (h : IsNative n z) (hm : 8 * n ≤ m) : -2 ^ m ≤ z := by
  have hpow : (2 : Int) ^ (8 * n - 1) ≤ 2 ^ m := by gcongr <;> omega
  linarith [h.ge]

theorem IsNative.lt_two_pow {n m : Nat} {z : Int} (h : IsNative n z) (hm : 8 * n ≤ m) : z < 2 ^ m :=
  h.lt.trans_le (by gcongr <;> omega)

/-! ## The image of a native integer (R72) -/

/-- The byte above a native integer: the sign for a signed target, zero for an unsigned one (R72). -/
def nativeFill (sg : Signedness) (z : Int) : Byte := if sg = .signed ∧ z < 0 then 0xFF else 0x00

/-- The image of a native integer of `n` bytes: its two's complement, filled up to the target's length (R72). -/
def nativeImage (n : Nat) (sg : Signedness) (w : Width) (z : Int) : List Byte :=
  leBytes n (enc (8 * n) z) ++ List.replicate (w.bytes - n) (nativeFill sg z)

theorem fromNative_eq_nativeImage {p : Config.HostParams} {w : Width} (h : p.nativeBytes ≤ w.bytes) (sg : Signedness)
    (z : Int) : fromNative p sg w z = .ok (nativeImage p.nativeBytes sg w z) :=
  if_neg (Nat.not_lt.2 h)

section NativeImage
variable {n : Nat} {w : Width} {sg : Signedness} {z : Int}

theorem nativeFill_of_neg (hz : z < 0) : nativeFill .signed z = 0xFF := if_pos ⟨rfl, hz⟩

theorem nativeFill_of_nonneg (hz : 0 ≤ z) (sg : Signedness) : nativeFill sg z = 0x00 :=
  if_neg fun h => hz.not_gt h.2

theorem nativeFill_unsigned (z : Int) : nativeFill .unsigned z = 0x00 := rfl

theorem length_nativeImage (h : n ≤ w.bytes) (sg : Signedness) (z : Int) :
    (nativeImage n sg w z).length = w.bytes := by
  simp [nativeImage, h]

theorem leValue_leBytes_enc (n : Nat) (z : Int) : leValue (leBytes n (enc (8 * n) z)) = enc (8 * n) z := by
  rw [leValue_leBytes, ← two_pow_eight_mul, Nat.mod_eq_of_lt (enc_lt ..)]

theorem leValue_nativeImage (n : Nat) (sg : Signedness) (w : Width) (z : Int) :
    leValue (nativeImage n sg w z) =
      enc (8 * n) z + 256 ^ n * leValue (List.replicate (w.bytes - n) (nativeFill sg z)) := by
  rw [nativeImage, leValue_append, length_leBytes, leValue_leBytes_enc]

/-- Over zeros the image has the value of the native integer's own bytes. -/
theorem leValue_nativeImage_of_zeros (hf : nativeFill sg z = 0x00) :
    leValue (nativeImage n sg w z) = enc (8 * n) z := by
  rw [leValue_nativeImage, hf, leValue_replicate_zero, Nat.mul_zero, Nat.add_zero]

/-- Over ones the value grows by the difference of the two moduli. -/
theorem leValue_nativeImage_of_ones (h : n ≤ w.bytes) (hf : nativeFill sg z = 0xFF) :
    leValue (nativeImage n sg w z) + 2 ^ (8 * n) = enc (8 * n) z + 2 ^ w.bits := by
  rw [leValue_nativeImage, hf, two_pow_bits_eq_pow_bytes, two_pow_eight_mul, add_assoc, ← mul_add_one,
    leValue_replicate_ones, ← pow_add, Nat.add_sub_cancel' h]

/-- Sign extension: a nonnegative integer, or one of a signed target, is stored as its two's complement at the target's
width. -/
theorem leValue_nativeImage_eq_enc (h : n ≤ w.bytes) (hz : IsNative n z) (hsg : sg = .signed ∨ 0 ≤ z) :
    leValue (nativeImage n sg w z) = enc w.bits z := by
  have hbits : 8 * n ≤ w.bits := by rw [← w.eight_bytes]; omega
  apply Int.natCast_inj.1
  obtain h0 | h0 := le_or_gt 0 z
  · rw [leValue_nativeImage_of_zeros (nativeFill_of_nonneg h0 sg), enc_of_nonneg h0 (hz.lt_two_pow le_rfl),
      enc_of_nonneg h0 (hz.lt_two_pow hbits)]
  · obtain rfl : sg = .signed := hsg.resolve_right h0.not_ge
    have hones : (leValue (nativeImage n .signed w z) : Int) + 2 ^ (8 * n) = enc (8 * n) z + 2 ^ w.bits := by
      exact_mod_cast leValue_nativeImage_of_ones h (nativeFill_of_neg h0)
    rw [enc_of_neg (hz.neg_two_pow_le le_rfl) h0] at hones
    rw [enc_of_neg (hz.neg_two_pow_le hbits) h0]
    linarith

end NativeImage

/-! ## Reading a native integer back (R75) -/

theorem take_nativeImage (n : Nat) (sg : Signedness) (w : Width) (z : Int) :
    (nativeImage n sg w z).take n = leBytes n (enc (8 * n) z) :=
  List.take_left' (length_leBytes ..)

theorem toNativeInt_nativeImage {p : Config.HostParams} {z : Int} (hz : IsNative p.nativeBytes z) (sg : Signedness)
    (w : Width) : toNativeInt p (nativeImage p.nativeBytes sg w z) = z := by
  have hpos := hz.bytes_pos
  have hpow := mul_pow_sub_one (n := 8 * p.nativeBytes) (by omega) (2 : Int)
  have hcast : ((2 ^ (8 * p.nativeBytes - 1) : Nat) : Int) = 2 ^ (8 * p.nativeBytes - 1) := by norm_cast
  rw [toNativeInt, take_nativeImage, leValue_leBytes_enc]
  obtain h0 | h0 := le_or_gt 0 z
  · have he := enc_of_nonneg h0 (hz.lt_two_pow le_rfl)
    have hlt := hz.lt
    rw [if_pos (by omega), he]
  · have he := enc_of_neg (hz.neg_two_pow_le le_rfl) h0
    have hge := hz.ge
    rw [if_neg (by omega), he, add_sub_cancel_right]

/-- Settles O56: the image is `nativeImage`, whose fill is ones only for a negative integer of a signed target. -/
theorem nativeIntegersAreStoredAndReadBack : Obligations.NativeIntegersAreStoredAndReadBack := by
  intro p sg w z hpos hlt hge hz
  have hnative : IsNative p.nativeBytes z := ⟨hpos, hge, hz⟩
  have hfits : p.nativeBytes ≤ w.bytes := hlt.le.trans (by cases w <;> decide)
  refine ⟨_, fromNative_eq_nativeImage hfits sg z, length_nativeImage hfits sg z, toNativeInt_nativeImage hnative sg w,
    leValue_nativeImage_eq_enc hfits hnative, ?_⟩
  rintro rfl h0
  rw [leValue_nativeImage_of_zeros (nativeFill_unsigned z), enc_of_neg (hnative.neg_two_pow_le le_rfl) h0]

end Sys2Proof.Machine

/-! PROOFS. NEG, ADD and SUB (41_add_sub_neg.md): the number each writes (R80 to R82), the laws of R86 read on
registers, and the ripple algorithms over byte limbs, which give the same bytes (R83 to R85). -/

namespace Sys2Proof.Machine

/-! ## What the three commands write in a running block -/

theorem eq_effectOf_of_exec {i : Instr} {s t : State} (hs : s.fault = 0) (h : exec i s = .next t) :
    t = effectOf i s := by
  obtain ⟨hf, -⟩ | ⟨-, ht⟩ := exec_cases h
  · exact absurd hs hf
  · exact ht

section Results
variable (w : Width) (sg : Signedness) (rd ra rb : RegNum) (s : State)

@[simp] theorem reg_effectOf_neg :
    (effectOf (.neg w sg rd ra) s).reg rd = wideOf w.bits (-(unsignedOf w (s.reg ra) : Int)) :=
  State.reg_writeV_same ..

@[simp] theorem reg_effectOf_add :
    (effectOf (.add w sg rd ra rb) s).reg rd =
      wideOf w.bits ((unsignedOf w (s.reg ra) : Int) + unsignedOf w (s.reg rb)) :=
  State.reg_writeV_same ..

@[simp] theorem reg_effectOf_sub :
    (effectOf (.sub w sg rd ra rb) s).reg rd =
      wideOf w.bits ((unsignedOf w (s.reg ra) : Int) - unsignedOf w (s.reg rb)) :=
  State.reg_writeV_same ..

theorem onlyRegister_effectOf_neg : OnlyRegister s (effectOf (.neg w sg rd ra) s) rd := onlyRegister_writeV ..

theorem onlyRegister_effectOf_add : OnlyRegister s (effectOf (.add w sg rd ra rb) s) rd := onlyRegister_writeV ..

theorem onlyRegister_effectOf_sub : OnlyRegister s (effectOf (.sub w sg rd ra rb) s) rd := onlyRegister_writeV ..

end Results

/-! ## Negation and subtraction as natural numbers -/

/-- Subtracting is adding the complement to the modulus, which keeps the number natural (41_add_sub_neg.md R82). -/
theorem enc_natCast_sub {m b : Nat} (hb : b ≤ 2 ^ m) (a : Nat) :
    enc m ((a : Int) - b) = (a + (2 ^ m - b)) % 2 ^ m := by
  rw [← enc_natCast]
  refine enc_congr ⟨-1, ?_⟩
  push_cast [hb]
  ring

theorem enc_neg_natCast {m b : Nat} (hb : b ≤ 2 ^ m) : enc m (-(b : Int)) = (2 ^ m - b) % 2 ^ m := by
  simpa using enc_natCast_sub hb 0

theorem toNat_setWidth_bits (w : Width) (r : Wide) : (r.setWidth w.bits).toNat = unsignedOf w r :=
  BitVec.toNat_setWidth ..

/-- The result of NEG is the two's complement of the source's low W bits as a W-bit vector. -/
theorem setWidth_wideOf_neg (w : Width) (r : Wide) :
    (wideOf w.bits (-(unsignedOf w r : Int))).setWidth w.bits = -r.setWidth w.bits := by
  apply BitVec.eq_of_toNat_eq
  rw [toNat_setWidth_bits, unsignedOf_wideOf, BitVec.toNat_neg, toNat_setWidth_bits,
    enc_neg_natCast (unsignedOf_lt w r).le]

/-- Settles O16: complement plus one is negation of a bit vector. -/
theorem negWritesTheTwosComplement : Obligations.NegWritesTheTwosComplement := by
  intro s w sg rd ra hs
  refine ⟨_, exec_running _ hs, ?_, ?_, onlyRegister_effectOf_neg ..⟩
  · rw [reg_effectOf_neg, toNat_wideOf_bits, enc_neg_natCast (unsignedOf_lt ..).le, State.unsigned_eq]
  · rw [reg_effectOf_neg, setWidth_wideOf_neg]
    exact BitVec.neg_eq_not_add _

/-- Settles O17: the values of either signedness agree with the unsigned ones modulo `2^W`. -/
theorem addWritesTheSumModuloTwoToTheWidth : Obligations.AddWritesTheSumModuloTwoToTheWidth := by
  intro s w sg sg' rd ra rb hs
  refine ⟨_, exec_running _ hs, ?_, ?_, onlyRegister_effectOf_add ..⟩
  · rw [reg_effectOf_add, toNat_wideOf_bits, ← Nat.cast_add, enc_natCast, State.unsigned_eq, State.unsigned_eq]
  · rw [reg_effectOf_add, toNat_wideOf_bits, State.value_eq, State.value_eq, enc_value_add]

/-- Settles O18: the values of either signedness agree with the unsigned ones modulo `2^W`. -/
theorem subWritesTheDifferenceModuloTwoToTheWidth : Obligations.SubWritesTheDifferenceModuloTwoToTheWidth := by
  intro s w sg sg' rd ra rb hs
  refine ⟨_, exec_running _ hs, ?_, ?_, onlyRegister_effectOf_sub ..⟩
  · rw [reg_effectOf_sub, toNat_wideOf_bits, enc_natCast_sub (unsignedOf_lt ..).le, State.unsigned_eq,
      State.unsigned_eq]
  · rw [reg_effectOf_sub, toNat_wideOf_bits, State.value_eq, State.value_eq, enc_value_sub]

/-! ## The laws of R86 -/

/-- `(a + b) - b = a` modulo `2^M`, the sum reduced in between (41_add_sub_neg.md R86 (a)). -/
theorem enc_enc_add_sub_cancel (m : Nat) (a b : Int) : enc m (enc m (a + b) - b) = enc m a := by
  rw [enc_eq_iff, enc_cast, Int.emod_sub_emod, add_sub_cancel_right]

/-- `NEG(a) + a = 0` modulo `2^M` (41_add_sub_neg.md R86 (c)). -/
theorem enc_neg_add_self_mod (m a : Nat) : (enc m (-(a : Int)) + a) % 2 ^ m = 0 := by
  rw [← enc_natCast, Nat.cast_add, enc_cast]
  simp [enc]

/-- Settles O19: neither command faults, and ADD leaves the second operand, whose register is not the destination. -/
theorem addingThenSubtractingRecoversTheOperand : Obligations.AddingThenSubtractingRecoversTheOperand := by
  intro s t u v w sg a b c hs hcb ht hu hv
  replace ht := eq_effectOf_of_exec hs ht
  obtain ⟨hkept, -, htfault, -⟩ : OnlyRegister s t c := ht ▸ onlyRegister_effectOf_add ..
  replace hu := eq_effectOf_of_exec (htfault.trans hs) hu
  obtain ⟨-, -, hufault, -⟩ : OnlyRegister t u c := hu ▸ onlyRegister_effectOf_sub ..
  replace hv := eq_effectOf_of_exec (hufault.trans (htfault.trans hs)) hv
  have hrecovered : unsignedOf w (u.reg c) = unsignedOf w (s.reg a) := by
    rw [hu, reg_effectOf_sub, unsignedOf_wideOf, hkept b hcb.symm, ht, reg_effectOf_add, unsignedOf_wideOf,
      enc_enc_add_sub_cancel, enc_natCast, Nat.mod_eq_of_lt (unsignedOf_lt ..)]
  refine ⟨hrecovered, ?_⟩
  rw [State.unsigned_eq, State.unsigned_eq, hv, reg_effectOf_neg, unsignedOf_wideOf, hrecovered, enc_neg_add_self_mod]

/-! ## The ripple algorithms over byte limbs (R83 to R85) -/

/-- One limb of a ripple algorithm: when the limbs above have value `z` modulo their own size, the whole list has value
`b + 256 z` modulo its size. -/
theorem leValue_cons_modEq {b : Byte} {bs : List Byte} {n : Nat} {y z : Int}
    (h : (leValue bs : Int) ≡ z [ZMOD 256 ^ n]) (hy : b.toNat + 256 * z = y) :
    (leValue (b :: bs) : Int) ≡ y [ZMOD 256 ^ (n + 1)] := by
  rw [← hy, pow_succ', leValue, Nat.cast_add, Nat.cast_mul]
  exact h.mul_left'.add_left _

/-- The result's image is the one list of N bytes whose value is the result modulo `2^W`. -/
theorem imageOf_wideOf_eq {w : Width} {l : List Byte} {z : Int} (hl : l.length = w.bytes)
    (h : (leValue l : Int) ≡ z [ZMOD 256 ^ w.bytes]) : imageOf w (wideOf w.bits z) = l := by
  have hmod : (2 : Int) ^ w.bits = 256 ^ w.bytes := by exact_mod_cast two_pow_bits_eq_pow_bytes w
  have henc : enc w.bits z = enc w.bits (leValue l) := (enc_eq_iff ..).2 (by rw [hmod]; exact h.symm)
  refine leValue_inj (by rw [length_imageOf, hl]) ?_
  rw [leValue_imageOf, unsignedOf_wideOf, henc, enc_natCast, two_pow_bits_eq_pow_bytes, ← hl,
    Nat.mod_eq_of_lt (leValue_lt l)]

theorem length_rippleAdd {as bs : List Byte} (h : as.length = bs.length) (c : Nat) :
    (rippleAdd c as bs).length = as.length := by
  induction as generalizing bs c with
  | nil => rfl
  | cons a as ih =>
    obtain ⟨b, bs, rfl⟩ := List.exists_cons_of_length_eq_add_one h.symm
    simp only [rippleAdd, List.length_cons, ih (Nat.succ.inj h)]

/-- Ripple-carry addition adds, whatever the incoming carry (41_add_sub_neg.md R83). -/
theorem leValue_rippleAdd_modEq {as bs : List Byte} (h : as.length = bs.length) (c : Nat) :
    (leValue (rippleAdd c as bs) : Int) ≡ leValue as + leValue bs + c [ZMOD 256 ^ as.length] := by
  induction as generalizing bs c with
  | nil => exact Int.modEq_one
  | cons a as ih =>
    obtain ⟨b, bs, rfl⟩ := List.exists_cons_of_length_eq_add_one h.symm
    rw [rippleAdd]
    refine leValue_cons_modEq (ih (Nat.succ.inj h) _) ?_
    simp only [leValue, BitVec.toNat_ofNat]
    omega

theorem length_rippleSub {as bs : List Byte} (h : as.length = bs.length) (c : Nat) :
    (rippleSub c as bs).length = as.length := by
  induction as generalizing bs c with
  | nil => rfl
  | cons a as ih =>
    obtain ⟨b, bs, rfl⟩ := List.exists_cons_of_length_eq_add_one h.symm
    rw [rippleSub]
    split <;> simp only [List.length_cons, ih (Nat.succ.inj h)]

/-- Ripple-borrow subtraction subtracts; its borrow is 0 or 1 (41_add_sub_neg.md R84). -/
theorem leValue_rippleSub_modEq {as bs : List Byte} (h : as.length = bs.length) {c : Nat} (hc : c ≤ 1) :
    (leValue (rippleSub c as bs) : Int) ≡ leValue as - leValue bs - c [ZMOD 256 ^ as.length] := by
  induction as generalizing bs c with
  | nil => exact Int.modEq_one
  | cons a as ih =>
    obtain ⟨b, bs, rfl⟩ := List.exists_cons_of_length_eq_add_one h.symm
    have ha := a.isLt
    have hb := b.isLt
    rw [rippleSub]
    split
    · refine leValue_cons_modEq (ih (Nat.succ.inj h) le_rfl) ?_
      simp only [leValue, BitVec.toNat_ofNat]
      omega
    · refine leValue_cons_modEq (ih (Nat.succ.inj h) (Nat.zero_le 1)) ?_
      simp only [leValue, BitVec.toNat_ofNat]
      omega

@[simp] theorem length_complementAddCarry (as : List Byte) (c : Nat) :
    (complementAddCarry c as).length = as.length := by
  induction as generalizing c with
  | nil => rfl
  | cons a as ih => simp only [complementAddCarry, List.length_cons, ih]

theorem toNat_xor_ones (b : Byte) : (b ^^^ 0xFF).toNat = 255 - b.toNat := by
  have hnot : b ^^^ 0xFF = ~~~b := BitVec.xor_allOnes
  rw [hnot, BitVec.toNat_not]

/-- Complementing every byte turns the value into minus it minus one, to which the incoming carry is added
(41_add_sub_neg.md R85). -/
theorem leValue_complementAddCarry_modEq (as : List Byte) (c : Nat) :
    (leValue (complementAddCarry c as) : Int) ≡ c - 1 - leValue as [ZMOD 256 ^ as.length] := by
  induction as generalizing c with
  | nil => exact Int.modEq_one
  | cons a as ih =>
    have ha := a.isLt
    rw [complementAddCarry]
    refine leValue_cons_modEq (ih _) ?_
    simp only [leValue, BitVec.toNat_ofNat, toNat_xor_ones]
    omega

/-- Settles O51: each algorithm gives N bytes whose value is, modulo `2^W`, the number the command writes. -/
theorem rippleAlgorithmsGiveAddSubNeg : Obligations.RippleAlgorithmsGiveAddSubNeg := by
  intro s t u v w sg rd ra rb hs ht hu hv
  obtain rfl := eq_effectOf_of_exec hs ht
  obtain rfl := eq_effectOf_of_exec hs hu
  obtain rfl := eq_effectOf_of_exec hs hv
  have hlen : (imageOf w (s.reg ra)).length = (imageOf w (s.reg rb)).length := by simp
  refine ⟨?_, ?_, ?_⟩
  · rw [reg_effectOf_add]
    refine imageOf_wideOf_eq (by simp [length_rippleAdd hlen]) ?_
    simpa using leValue_rippleAdd_modEq hlen 0
  · rw [reg_effectOf_sub]
    refine imageOf_wideOf_eq (by simp [length_rippleSub hlen]) ?_
    simpa using leValue_rippleSub_modEq hlen (Nat.zero_le 1)
  · rw [reg_effectOf_neg]
    refine imageOf_wideOf_eq (by simp) ?_
    simpa using leValue_complementAddCarry_modEq (imageOf w (s.reg ra)) 1

end Sys2Proof.Machine

/-! PROOFS. MULL and MULF (42_multiply.md): the number each writes (R90, R91), that MULF is illegal at width 1024, the
law of R95 (e) read on registers, and the schoolbook algorithm over byte limbs, which gives the same bytes (R92, R93). -/

namespace Sys2Proof

/-! ## The double width (R94) -/

theorem Width.bits_double {w w2 : Width} (h : w.double = some w2) : w2.bits = 2 * w.bits := by
  cases w <;> cases h <;> rfl

theorem Width.bytes_double {w w2 : Width} (h : w.double = some w2) : w2.bytes = 2 * w.bytes := by
  cases w <;> cases h <;> rfl

/-- The widths with a partner are those of full multiply (42_multiply.md R91). -/
theorem fullMultiplyWidthOk_eq_isSome_double (w : Width) : fullMultiplyWidthOk w = w.double.isSome := by
  cases w <;> rfl

end Sys2Proof

namespace Sys2Proof.Machine

/-! ## What the two commands write in a running block -/

section Results
variable (w : Width) (sg : Signedness) (rd ra rb : RegNum) (s : State)

@[simp] theorem reg_effectOf_mull :
    (effectOf (.mull w sg rd ra rb) s).reg rd =
      wideOf w.bits ((unsignedOf w (s.reg ra) : Int) * unsignedOf w (s.reg rb)) :=
  State.reg_writeV_same ..

theorem onlyRegister_effectOf_mull : OnlyRegister s (effectOf (.mull w sg rd ra rb) s) rd := onlyRegister_writeV ..

variable {w} {sg} {rd ra rb} {s}

theorem effectOf_mulf_of_double {w2 : Width} (h : w.double = some w2) :
    effectOf (.mulf w sg rd ra rb) s =
      s.writeV rd w2.bits (valueOf sg w (s.reg ra) * valueOf sg w (s.reg rb)) := by
  have hok : fullMultiplyWidthOk w = true := by rw [fullMultiplyWidthOk_eq_isSome_double, h]; rfl
  rw [effectOf, if_pos hok, Width.bits_double h]
  rfl

theorem reg_effectOf_mulf {w2 : Width} (h : w.double = some w2) :
    (effectOf (.mulf w sg rd ra rb) s).reg rd =
      wideOf w2.bits (valueOf sg w (s.reg ra) * valueOf sg w (s.reg rb)) := by
  rw [effectOf_mulf_of_double h, State.reg_writeV_same]

theorem onlyRegister_effectOf_mulf {w2 : Width} (h : w.double = some w2) :
    OnlyRegister s (effectOf (.mulf w sg rd ra rb) s) rd := by
  rw [effectOf_mulf_of_double h]
  exact onlyRegister_writeV ..

theorem effectOf_mulf_of_not_ok (h : fullMultiplyWidthOk w = false) :
    effectOf (.mulf w sg rd ra rb) s = raise .illegalCommand (encode (.mulf w sg rd ra rb)) s := by
  simp [effectOf, h]

end Results

/-! ## MULL -/

/-- Settles O20: the values of either signedness agree with the unsigned ones modulo `2^W`. -/
theorem mullWritesTheTruncatedProduct : Obligations.MullWritesTheTruncatedProduct := by
  intro s w sg sg' rd ra rb hs
  refine ⟨_, exec_running _ hs, ?_, ?_, onlyRegister_effectOf_mull ..⟩
  · rw [reg_effectOf_mull, toNat_wideOf_bits, ← Nat.cast_mul, enc_natCast, State.unsigned_eq, State.unsigned_eq]
  · rw [reg_effectOf_mull, toNat_wideOf_bits, State.value_eq, State.value_eq, enc_value_mul]

/-! ## MULF -/

@[simp] theorem valueOf_unsigned (w : Width) (r : Wide) : valueOf .unsigned w r = unsignedOf w r := rfl

/-- Truncating an encoding at a narrower width encodes at that width. -/
theorem enc_mod_two_pow {m n : Nat} (h : m ≤ n) (z : Int) : enc n z % 2 ^ m = enc m z := by
  apply Int.natCast_inj.1
  push_cast
  rw [enc_cast, enc_cast, Int.emod_emod_of_dvd z (pow_dvd_pow 2 h)]

theorem unsignedOf_wideOf_of_bits_le {w w2 : Width} (h : w.bits ≤ w2.bits) (z : Int) :
    unsignedOf w (wideOf w2.bits z) = enc w.bits z := by
  rw [unsignedOf, toNat_wideOf_bits, enc_mod_two_pow h]

/-- A product of unsigned values fits the double width. -/
theorem unsignedOf_wideOf_mul {w w2 : Width} (h : w.double = some w2) (x y : Wide) :
    unsignedOf w2 (wideOf w2.bits ((unsignedOf w x : Int) * unsignedOf w y)) = unsignedOf w x * unsignedOf w y := by
  have hfits : unsignedOf w x * unsignedOf w y < 2 ^ w2.bits := by
    rw [Width.bits_double h, two_mul, pow_add]
    exact Nat.mul_lt_mul'' (unsignedOf_lt w x) (unsignedOf_lt w y)
  rw [unsignedOf_wideOf, ← Nat.cast_mul, enc_natCast, Nat.mod_eq_of_lt hfits]

theorem abs_signedOf_le (w : Width) (r : Wide) : |signedOf w r| ≤ 2 ^ (w.bits - 1) := by
  obtain ⟨hge, hlt⟩ := signedOf_range w r
  exact abs_le.2 ⟨hge, hlt.le⟩

/-- A product of signed values lies inside the two's-complement range of the double width: its magnitude is at most
`2^(2W-2)`. -/
theorem abs_signedOf_mul_lt {w w2 : Width} (h : w.double = some w2) (x y : Wide) :
    |signedOf w x * signedOf w y| < 2 ^ (w2.bits - 1) := by
  have hpos := w.bits_pos
  calc |signedOf w x * signedOf w y| = |signedOf w x| * |signedOf w y| := abs_mul ..
    _ ≤ 2 ^ (w.bits - 1) * 2 ^ (w.bits - 1) := by gcongr <;> exact abs_signedOf_le ..
    _ = 2 ^ ((w.bits - 1) + (w.bits - 1)) := (pow_add ..).symm
    _ < 2 ^ (w2.bits - 1) := by
      rw [Width.bits_double h]
      gcongr <;> omega

/-- Read at the double width with the signedness of its factors, a product is exact (42_multiply.md R91). -/
theorem valueOf_wideOf_mul {w w2 : Width} (h : w.double = some w2) (sg : Signedness) (x y : Wide) :
    valueOf sg w2 (wideOf w2.bits (valueOf sg w x * valueOf sg w y)) = valueOf sg w x * valueOf sg w y := by
  cases sg with
  | unsigned =>
    rw [valueOf_unsigned, valueOf_unsigned, valueOf_unsigned, unsignedOf_wideOf_mul h, Nat.cast_mul]
  | signed =>
    obtain ⟨hgt, hlt⟩ := abs_lt.1 (abs_signedOf_mul_lt h x y)
    exact signedOf_wideOf w2 hgt.le hlt

/-- Settles O21: the exact product fits the double width, and its low half is MULL's result. -/
theorem mulfWritesTheExactProduct : Obligations.MulfWritesTheExactProduct := by
  intro s w w2 sg rd ra rb hs hw
  have hle : w.bits ≤ w2.bits := by rw [Width.bits_double hw]; omega
  refine ⟨_, exec_running _ hs, ?_, ?_, ?_, onlyRegister_effectOf_mulf hw⟩
  · rw [State.value_eq, reg_effectOf_mulf hw, valueOf_wideOf_mul hw, State.value_eq, State.value_eq]
  · rw [reg_effectOf_mulf hw]
    exact toNat_wideOf_lt ..
  · rw [State.unsigned_eq, reg_effectOf_mulf hw, unsignedOf_wideOf_of_bits_le hle, enc_value_mul,
      ← Nat.cast_mul, enc_natCast, State.unsigned_eq, State.unsigned_eq]

/-- Settles O22: the term raises the fault itself, and its word is illegal. -/
theorem mulfAtTheWidestWidthIsIllegal : Obligations.MulfAtTheWidestWidthIsIllegal := by
  intro s w sg rd ra rb hs hw
  have hno : fullMultiplyWidthOk w = false := by rw [fullMultiplyWidthOk_eq_isSome_double, hw]; rfl
  refine ⟨raise .illegalCommand (encode (.mulf w sg rd ra rb)) s, ?_, faultRecorded_raise .., ?_⟩
  · rw [exec_running _ hs, effectOf_mulf_of_not_ok hno]
  · rw [deliver_cmdWrite, issue_illegal (decode_encode_mulf_of_not_ok hno sg rd ra rb), command_running hs]

/-! ## A square divided by its operand (R95 (e)) -/

/-- Dividing the square of a nonzero divisor writes the divisor and no remainder. -/
theorem unsignedOf_divmod_mul_self {s t : State} {w : Width} {rd re ra rb : RegNum} (hs : s.fault = 0)
    (hb : unsignedOf w (s.reg rb) ≠ 0)
    (ha : unsignedOf w (s.reg ra) = unsignedOf w (s.reg rb) * unsignedOf w (s.reg rb))
    (h : exec (.divmod w .unsigned rd re ra rb) s = .next t) :
    unsignedOf w (t.reg rd) = unsignedOf w (s.reg rb) ∧ (re ≠ rd → t.reg re = 0) := by
  obtain rfl := eq_effectOf_of_exec hs h
  have hb' : (unsignedOf w (s.reg rb) : Int) ≠ 0 := by exact_mod_cast hb
  have heffect : effectOf (.divmod w .unsigned rd re ra rb) s = writeQuotientRemainder w rd re
      ((unsignedOf w (s.reg rb) : Int) * unsignedOf w (s.reg rb)) (unsignedOf w (s.reg rb)) s := by
    rw [← Nat.cast_mul, ← ha]
    exact if_neg hb
  rw [heffect]
  constructor
  · rw [reg_writeQuotientRemainder, if_pos rfl, unsignedOf_wideOf, truncDiv, Int.mul_tdiv_cancel _ hb', enc_natCast,
      Nat.mod_eq_of_lt (unsignedOf_lt ..)]
  · intro hne
    rw [reg_writeQuotientRemainder, if_neg hne, if_pos rfl, truncRem_eq_tmod, Int.mul_tmod_left]
    simp [wideOf, enc]

/-- A state whose register `b` was given the square of `a`, divided by `a`, gives `a` back. -/
theorem unsignedOf_divmod_of_square {s t u : State} {w : Width} {a b c d : RegNum} (hs : s.fault = 0)
    (honly : OnlyRegister s t b) (hba : b ≠ a) (ha : unsignedOf w (s.reg a) ≠ 0)
    (hsquare : unsignedOf w (t.reg b) = unsignedOf w (s.reg a) * unsignedOf w (s.reg a))
    (hu : exec (.divmod w .unsigned c d b a) t = .next u) :
    unsignedOf w (u.reg c) = unsignedOf w (s.reg a) ∧ (d ≠ c → u.reg d = 0) := by
  obtain ⟨hkept, -, hfault, -⟩ := honly
  rw [← hkept a hba.symm] at ha hsquare ⊢
  exact unsignedOf_divmod_mul_self (hfault.trans hs) ha hsquare hu

/-- Settles O23: the product register holds the whole square, and the operand's register is not the destination of the
multiplication. DIV is DIVMOD with one destination. -/
theorem squareDividedByTheOperandRecoversIt : Obligations.SquareDividedByTheOperandRecoversIt := by
  constructor
  · intro s t u w a b c hs hba ha hfits ht hu
    obtain rfl := eq_effectOf_of_exec hs ht
    rw [State.unsigned_eq] at ha hfits
    rw [← exec_expand] at hu
    refine (unsignedOf_divmod_of_square hs (onlyRegister_effectOf_mull ..) hba ha ?_ hu).1
    rw [reg_effectOf_mull, unsignedOf_wideOf, ← Nat.cast_mul, enc_natCast, Nat.mod_eq_of_lt hfits]
  · intro s t u w w2 a b c d hs hw hba hcd hsame ha ht hu
    obtain rfl := eq_effectOf_of_exec hs ht
    rw [State.unsigned_eq, State.unsigned_eq] at hsame
    rw [State.unsigned_eq, ← hsame] at ha
    have hsquare : unsignedOf w2 ((effectOf (.mulf w .unsigned b a a) s).reg b) =
        unsignedOf w2 (s.reg a) * unsignedOf w2 (s.reg a) := by
      rw [reg_effectOf_mulf hw, hsame]
      exact unsignedOf_wideOf_mul hw ..
    obtain ⟨hquotient, hremainder⟩ :=
      unsignedOf_divmod_of_square hs (onlyRegister_effectOf_mulf hw) hba ha hsquare hu
    exact ⟨hquotient.trans hsame, hremainder hcd.symm⟩

/-! ## The schoolbook algorithm over byte limbs (R92) -/

@[simp] theorem length_mulRow (x : Byte) (c : Nat) (rs bs : List Byte) : (mulRow x c rs bs).length = rs.length := by
  induction rs generalizing c bs with
  | nil => rfl
  | cons r rs ih => cases bs <;> simp only [mulRow, List.length_cons, ih]

/-- One row adds the byte times the multiplicand and the incoming carry to the accumulator. The multiplicand may be the
shorter list, in which case the carry runs on, or the longer one, which is then cut off. -/
theorem leValue_mulRow_modEq (x : Byte) (c : Nat) (rs bs : List Byte) :
    (leValue (mulRow x c rs bs) : Int) ≡ leValue rs + x.toNat * leValue bs + c [ZMOD 256 ^ rs.length] := by
  induction rs generalizing c bs with
  | nil => exact Int.modEq_one
  | cons r rs ih =>
    cases bs with
    | nil =>
      rw [mulRow]
      refine leValue_cons_modEq (ih _ []) ?_
      simp only [leValue, BitVec.toNat_ofNat]
      omega
    | cons b bs =>
      rw [mulRow]
      refine leValue_cons_modEq (ih _ bs) ?_
      have hlimb := Nat.mod_add_div (r.toNat + x.toNat * b.toNat + c) 256
      zify at hlimb
      simp only [leValue, BitVec.toNat_ofNat, Nat.mod_mod]
      push_cast
      linear_combination hlimb

@[simp] theorem length_mulRows (acc as bs : List Byte) : (mulRows acc as bs).length = acc.length := by
  induction as generalizing acc with
  | nil => rfl
  | cons a as ih =>
    rw [mulRows, ← length_mulRow a 0 acc bs]
    cases mulRow a 0 acc bs with
    | nil => rfl
    | cons r rs => simp only [List.length_cons, ih]

/-- The rows add the product of the two lists to the accumulator: after a row its lowest limb is final, and the rest
is the accumulator of the next row, one position further up. -/
theorem leValue_mulRows_modEq (acc as bs : List Byte) :
    (leValue (mulRows acc as bs) : Int) ≡ leValue acc + leValue as * leValue bs [ZMOD 256 ^ acc.length] := by
  induction as generalizing acc with
  | nil => simp [mulRows, leValue]
  | cons a as ih =>
    have hrow := leValue_mulRow_modEq a 0 acc bs
    rw [mulRows]
    rw [← length_mulRow a 0 acc bs] at hrow ⊢
    cases hlimbs : mulRow a 0 acc bs with
    | nil => exact Int.modEq_one
    | cons r rs =>
      rw [hlimbs] at hrow
      calc (leValue (r :: mulRows rs as bs) : Int)
        _ ≡ leValue (r :: rs) + 256 * (leValue as * leValue bs) [ZMOD 256 ^ (rs.length + 1)] := by
          refine leValue_cons_modEq (ih rs) ?_
          simp only [leValue]
          push_cast
          ring
        _ ≡ leValue acc + a.toNat * leValue bs + (0 : Nat) + 256 * (leValue as * leValue bs)
            [ZMOD 256 ^ (rs.length + 1)] := hrow.add_right _
        _ = leValue acc + leValue (a :: as) * leValue bs := by
          simp only [leValue]
          push_cast
          ring

@[simp] theorem length_schoolbook (m : Nat) (as bs : List Byte) : (schoolbook m as bs).length = m := by
  simp [schoolbook]

/-- Schoolbook multiplication to `m` bytes multiplies modulo `256^m` (42_multiply.md R92). -/
theorem leValue_schoolbook_modEq (m : Nat) (as bs : List Byte) :
    (leValue (schoolbook m as bs) : Int) ≡ leValue as * leValue bs [ZMOD 256 ^ m] := by
  have hrows := leValue_mulRows_modEq (List.replicate m 0) as bs
  rwa [leValue_replicate_zero, Nat.cast_zero, zero_add, List.length_replicate] at hrows

/-! ## Sign-extended images (R93) -/

/-- The sign of an image is the sign bit of the value it holds. -/
theorem imageSign_imageOf (w : Width) (r : Wide) : imageSign (imageOf w r) = signBit w r := by
  have hbits := w.eight_bytes
  have hpos := w.bits_pos
  have htop : (imageOf w r).getLastD 0 = byteOf r (w.bytes - 1) := by
    have hne : w.bytes ≠ 0 := by omega
    simp [imageOf, List.getLastD_eq_getLast?, List.getLast?_range, hne]
  have hindex : 8 * (w.bytes - 1) + 7 = w.bits - 1 := by omega
  rw [imageSign, htop, getLsbD_byteOf, hindex, signBit]
  rfl

@[simp] theorem length_signExtend (img : List Byte) : (signExtend img).length = 2 * img.length := by
  simp [signExtend, two_mul]

/-- A sign-extended image holds the signed value modulo its own size (42_multiply.md R93). -/
theorem leValue_signExtend_imageOf_modEq (w : Width) (r : Wide) :
    (leValue (signExtend (imageOf w r)) : Int) ≡ signedOf w r [ZMOD 256 ^ (2 * w.bytes)] := by
  have hmod : (2 : Int) ^ w.bits = 256 ^ w.bytes := by exact_mod_cast two_pow_bits_eq_pow_bytes w
  rw [signExtend, imageSign_imageOf, leValue_append, leValue_imageOf, length_imageOf, signedOf, hmod]
  cases signBit w r with
  | false =>
    rw [if_neg Bool.false_ne_true, leValue_replicate_zero]
    simp
  | true =>
    have hones := leValue_replicate_ones w.bytes
    zify at hones
    refine Int.modEq_iff_dvd.2 ⟨-1, ?_⟩
    rw [if_pos rfl, Bool.toNat_true, two_mul, pow_add]
    push_cast
    linear_combination -256 ^ w.bytes * hones

theorem length_schoolbookSigned (as bs : List Byte) : (schoolbookSigned as bs).length = 2 * as.length :=
  length_schoolbook ..

/-- Multiplying the sign-extended images gives the product of the signed values (42_multiply.md R93). -/
theorem leValue_schoolbookSigned_imageOf_modEq (w : Width) (x y : Wide) :
    (leValue (schoolbookSigned (imageOf w x) (imageOf w y)) : Int) ≡ signedOf w x * signedOf w y
      [ZMOD 256 ^ (2 * w.bytes)] := by
  rw [schoolbookSigned, length_imageOf]
  exact (leValue_schoolbook_modEq ..).trans
    ((leValue_signExtend_imageOf_modEq w x).mul (leValue_signExtend_imageOf_modEq w y))

/-- Settles O52: each algorithm gives as many bytes as the command writes, whose value is the product modulo their
size. -/
theorem schoolbookAlgorithmGivesTheProducts : Obligations.SchoolbookAlgorithmGivesTheProducts := by
  constructor
  · intro s t w sg rd ra rb hs ht
    obtain rfl := eq_effectOf_of_exec hs ht
    rw [reg_effectOf_mull]
    refine imageOf_wideOf_eq (length_schoolbook ..) ?_
    simpa using leValue_schoolbook_modEq w.bytes (imageOf w (s.reg ra)) (imageOf w (s.reg rb))
  · intro s t u w w2 rd ra rb hs hw ht hu
    obtain rfl := eq_effectOf_of_exec hs ht
    obtain rfl := eq_effectOf_of_exec hs hu
    rw [reg_effectOf_mulf hw, reg_effectOf_mulf hw]
    constructor
    · refine imageOf_wideOf_eq (length_schoolbook ..) ?_
      simpa using leValue_schoolbook_modEq w2.bytes (imageOf w (s.reg ra)) (imageOf w (s.reg rb))
    · refine imageOf_wideOf_eq ?_ ?_
      · rw [length_schoolbookSigned, length_imageOf, Width.bytes_double hw]
      · rw [Width.bytes_double hw]
        exact leValue_schoolbookSigned_imageOf_modEq ..

end Sys2Proof.Machine

/-! PROOFS. DIVMOD, MOD and DIV (43_divide.md): the fault of a zero divisor (R103), the numbers the commands write
(R100, R101, R107), their signs and magnitudes (R102), the quotient that wraps (R104), and restoring long division over
byte limbs, which gives the same bytes (R105, R106). -/

namespace Sys2Proof.Machine

/-! ## What a dividing command does in a running block -/

section Dividing
variable {i : Instr} {cmd : Word} {w : Width} {sg : Signedness} {ra rb : RegNum} {k : Int → Int → State → State}
  {s : State}

/-- A zero divisor records cause 1 and the command's word (43_divide.md R103). -/
theorem exec_dividing_of_eq_zero (hs : s.fault = 0) (hi : effectOf i s = dividing cmd w sg ra rb k s)
    (hb : unsignedOf w (s.reg rb) = 0) : ∃ t, exec i s = .next t ∧ FaultRecorded s t 1 cmd := by
  have hraise : effectOf i s = raise .divisionByZero cmd s := hi.trans (if_pos hb)
  exact ⟨_, exec_running i hs, hraise ▸ faultRecorded_raise ..⟩

/-- With any other divisor the command performs its division. -/
theorem exec_dividing_of_ne_zero (hs : s.fault = 0) (hi : effectOf i s = dividing cmd w sg ra rb k s)
    (hb : unsignedOf w (s.reg rb) ≠ 0) :
    exec i s = .next (k (valueOf sg w (s.reg ra)) (valueOf sg w (s.reg rb)) s) := by
  rw [exec_running i hs, hi]
  exact congrArg _ (if_neg hb)

end Dividing

theorem effectOf_mod (w : Width) (sg : Signedness) (rd ra rb : RegNum) (s : State) :
    effectOf (.mod w sg rd ra rb) s = dividing (encode (.mod w sg rd ra rb)) w sg ra rb
      (fun a b s => s.writeV rd w.bits (truncRem a b)) s := rfl

section Quotient
variable (w : Width) (rd : RegNum) (a b : Int) (s : State)

@[simp] theorem reg_writeQuotientRemainder_quotient (re : RegNum) :
    (writeQuotientRemainder w rd re a b s).reg rd = wideOf w.bits (truncDiv a b) := by
  simp [reg_writeQuotientRemainder]

theorem reg_writeQuotientRemainder_remainder {rd re : RegNum} (h : re ≠ rd) :
    (writeQuotientRemainder w rd re a b s).reg re = wideOf w.bits (truncRem a b) := by
  simp [reg_writeQuotientRemainder, h]

/-- With `re = rd` the remainder is dropped (43_divide.md R107). -/
theorem writeQuotientRemainder_self :
    writeQuotientRemainder w rd rd a b s = s.writeV rd w.bits (truncDiv a b) :=
  if_pos rfl

end Quotient

/-! ## The truncating division (R100) -/

/-- The identity, the bound and the sign that fix quotient and remainder. -/
theorem truncDiv_truncRem_spec (a : Int) {b : Int} (hb : b ≠ 0) :
    a = b * truncDiv a b + truncRem a b ∧ |truncRem a b| < |b| ∧
      (truncRem a b = 0 ∨ (truncRem a b).sign = a.sign) := by
  refine ⟨by rw [truncRem]; ring, ?_, ?_⟩
  · rw [truncRem_eq_tmod, Int.abs_eq_natAbs, Int.abs_eq_natAbs, Int.natAbs_tmod]
    exact_mod_cast Nat.mod_lt _ (Int.natAbs_pos.2 hb)
  · rw [truncRem_eq_tmod]
    by_cases hdvd : b ∣ a
    · exact .inl (Int.tmod_eq_zero_of_dvd hdvd)
    · exact .inr (by rw [Int.sign_tmod, if_neg hdvd])

theorem valueOf_ne_zero {w : Width} {r : Wide} (h : unsignedOf w r ≠ 0) (sg : Signedness) : valueOf sg w r ≠ 0 :=
  mt (valueOf_eq_zero_iff sg w r).1 h

/-- Settles O24: the spec of the truncating division, and the registers the two writes leave. -/
theorem divmodWritesQuotientAndRemainder : Obligations.DivmodWritesQuotientAndRemainder := by
  intro s w sg rd re ra rb hs
  refine ⟨exec_dividing_of_eq_zero hs rfl, fun hb => ?_⟩
  obtain ⟨hidentity, hbound, hsign⟩ := truncDiv_truncRem_spec (valueOf sg w (s.reg ra)) (valueOf_ne_zero hb sg)
  refine ⟨_, _, _, exec_dividing_of_ne_zero hs rfl hb, hidentity, hbound, hsign, ?_, fun hre => ?_,
    fun m hrd hre => ?_, by simp, by simpa using hs, by simp, by simp, by simp⟩
  · rw [reg_writeQuotientRemainder_quotient, toNat_wideOf_bits]
  · rw [reg_writeQuotientRemainder_remainder w _ _ s hre, toNat_wideOf_bits]
  · rw [reg_writeQuotientRemainder, if_neg hrd, if_neg hre]

/-- Settles O25: the same division, with the remainder as the one write. -/
theorem modWritesTheRemainder : Obligations.ModWritesTheRemainder := by
  intro s w sg rd ra rb hs
  refine ⟨exec_dividing_of_eq_zero hs (effectOf_mod ..), fun hb => ?_⟩
  obtain ⟨hidentity, hbound, hsign⟩ := truncDiv_truncRem_spec (valueOf sg w (s.reg ra)) (valueOf_ne_zero hb sg)
  refine ⟨_, _, _, exec_dividing_of_ne_zero hs (effectOf_mod ..) hb, hidentity, hbound, hsign, ?_,
    onlyRegister_writeV ..⟩
  rw [State.reg_writeV_same, toNat_wideOf_bits]

/-- Settles O26: DIV's own word is that of DIVMOD with one destination. -/
theorem divWritesTheQuotientAlone : Obligations.DivWritesTheQuotientAlone := by
  intro s w sg rd ra rb hs
  refine ⟨exec_dividing_of_eq_zero hs rfl, fun hb => ?_⟩
  obtain ⟨hidentity, hbound, hsign⟩ := truncDiv_truncRem_spec (valueOf sg w (s.reg ra)) (valueOf_ne_zero hb sg)
  have hexec := exec_dividing_of_ne_zero (i := .div w sg rd ra rb) hs rfl hb
  rw [writeQuotientRemainder_self] at hexec
  refine ⟨_, _, _, hexec, hidentity, hbound, hsign, ?_, onlyRegister_writeV ..⟩
  rw [State.reg_writeV_same, toNat_wideOf_bits]

/-! ## A zero divisor (R103) -/

theorem unsignedOf_eq_zero_of_bytes {w : Width} {r : Wide} (h : ∀ k, k < w.bytes → byteOf r k = 0) :
    unsignedOf w r = 0 := by
  have hzeros : imageOf w r = List.replicate w.bytes 0x00 :=
    List.eq_replicate_iff.2 ⟨length_imageOf w r, by simpa [imageOf] using h⟩
  rw [← leValue_imageOf, hzeros, leValue_replicate_zero]

/-- Settles O27: the three commands divide by the same value, which the N low bytes alone decide. -/
theorem zeroDivisorRaisesDivisionByZero : Obligations.ZeroDivisorRaisesDivisionByZero := by
  intro s w sg rd re ra rb hs hbytes
  have hb := unsignedOf_eq_zero_of_bytes hbytes
  exact ⟨exec_dividing_of_eq_zero hs rfl hb, exec_dividing_of_eq_zero hs (effectOf_mod ..) hb,
    exec_dividing_of_eq_zero hs rfl hb⟩

/-! ## Signs and magnitudes (R102) -/

/-- The integer of a sign and a magnitude. -/
def withSign (neg : Bool) (m : Nat) : Int := if neg then -(m : Int) else m

@[simp] theorem natAbs_withSign (neg : Bool) (m : Nat) : (withSign neg m).natAbs = m := by
  cases neg <;> simp [withSign]

theorem withSign_lt_zero_iff {neg : Bool} {m : Nat} : withSign neg m < 0 ↔ neg = true ∧ m ≠ 0 := by
  cases neg <;> simp [withSign, Nat.pos_iff_ne_zero]

theorem withSign_natAbs (z : Int) : withSign (decide (z < 0)) z.natAbs = z := by
  by_cases h : z < 0
  · simp only [withSign, h, decide_true, if_true]; omega
  · simp only [withSign, h, decide_false, Bool.false_eq_true, if_false]; omega

/-- The quotient is that of the magnitudes, negative when the signs differ (43_divide.md R102). -/
theorem truncDiv_withSign (na nb : Bool) (a b : Nat) :
    truncDiv (withSign na a) (withSign nb b) = withSign (na != nb) (a / b) := by
  cases na <;> cases nb <;> simp [truncDiv, withSign, Int.neg_tdiv, Int.tdiv_neg]

/-- The remainder is that of the magnitudes, with the dividend's sign (43_divide.md R102). -/
theorem truncRem_withSign (na nb : Bool) (a b : Nat) :
    truncRem (withSign na a) (withSign nb b) = withSign na (a % b) := by
  cases na <;> cases nb <;> simp [truncRem_eq_tmod, withSign, Int.neg_tmod, Int.tmod_neg, Int.tmod_eq_emod_of_nonneg]

theorem truncDiv_natCast (a b : Nat) : truncDiv a b = (a / b : Nat) := truncDiv_withSign false false a b

theorem truncRem_natCast (a b : Nat) : truncRem a b = (a % b : Nat) := truncRem_withSign false false a b

theorem truncDiv_eq_withSign (a b : Int) :
    truncDiv a b = withSign (decide (a < 0) != decide (b < 0)) (a.natAbs / b.natAbs) := by
  rw [← truncDiv_withSign, withSign_natAbs, withSign_natAbs]

theorem truncRem_eq_withSign (a b : Int) :
    truncRem a b = withSign (decide (a < 0)) (a.natAbs % b.natAbs) := by
  rw [← truncRem_withSign _ (decide (b < 0)), withSign_natAbs, withSign_natAbs]

theorem natAbs_truncDiv (a b : Int) : (truncDiv a b).natAbs = a.natAbs / b.natAbs := Int.natAbs_tdiv a b

theorem natAbs_truncRem (a b : Int) : (truncRem a b).natAbs = a.natAbs - b.natAbs * (truncDiv a b).natAbs := by
  rw [truncRem_eq_tmod, Int.natAbs_tmod, natAbs_truncDiv, Nat.mod_eq_sub]

theorem truncDiv_lt_zero_iff (a b : Int) :
    truncDiv a b < 0 ↔ ((a < 0) ≠ (b < 0)) ∧ (truncDiv a b).natAbs ≠ 0 := by
  rw [truncDiv_eq_withSign, withSign_lt_zero_iff, natAbs_withSign, bne_iff_ne]
  simp only [ne_eq, decide_eq_decide, eq_iff_iff]

theorem truncRem_lt_zero_iff (a b : Int) : truncRem a b < 0 ↔ a < 0 ∧ (truncRem a b).natAbs ≠ 0 := by
  rw [truncRem_eq_withSign, withSign_lt_zero_iff, natAbs_withSign, decide_eq_true_iff]

/-- Settles O28: quotient and remainder are those of the magnitudes with the signs put back. -/
theorem signedDivisionSignsAndMagnitudes : Obligations.SignedDivisionSignsAndMagnitudes := by
  intro s w rd re ra rb hs
  refine ⟨exec_dividing_of_eq_zero hs rfl, fun hb => ?_⟩
  refine ⟨_, _, _, exec_dividing_of_ne_zero hs rfl hb, ?_, fun hre => ?_, natAbs_truncDiv .., natAbs_truncRem ..,
    truncDiv_lt_zero_iff .., truncRem_lt_zero_iff ..⟩
  · rw [reg_writeQuotientRemainder_quotient, toNat_wideOf_bits, State.value_eq, State.value_eq]
  · rw [reg_writeQuotientRemainder_remainder w _ _ s hre, toNat_wideOf_bits, State.value_eq, State.value_eq]

/-! ## The quotient that wraps (R104) -/

/-- The most negative value over -1: the quotient is one modulus above the dividend. -/
theorem enc_truncDiv_neg_one (w : Width) : enc w.bits (truncDiv (-2 ^ (w.bits - 1)) (-1)) =
    enc w.bits (-2 ^ (w.bits - 1)) := by
  have hquotient : truncDiv (-2 ^ (w.bits - 1)) (-1) = 2 ^ (w.bits - 1) := by simp [truncDiv]
  rw [hquotient]
  exact enc_congr ⟨1, by rw [w.two_pow_bits_int]; ring⟩

theorem truncRem_neg_one (a : Int) : truncRem a (-1) = 0 := by simp [truncRem, truncDiv]

@[simp] theorem wideOf_zero (m : Nat) : wideOf m 0 = 0 := by simp [wideOf, enc]

/-- An unsigned quotient is at most the dividend. -/
theorem unsignedOf_wideOf_truncDiv (w : Width) (x y : Wide) :
    (unsignedOf w (wideOf w.bits (truncDiv (unsignedOf w x) (unsignedOf w y))) : Int) =
      truncDiv (unsignedOf w x) (unsignedOf w y) := by
  have hlt : unsignedOf w x / unsignedOf w y < 2 ^ w.bits := (Nat.div_le_self ..).trans_lt (unsignedOf_lt w x)
  rw [truncDiv_natCast, unsignedOf_wideOf, enc_natCast, Nat.mod_eq_of_lt hlt]

/-- The quotient of a dividend in `[-p, p)` lies there too, unless it is that of `-p` by -1: it is no larger than the
dividend, and to be `p` it would need a dividend of magnitude `p` and a divisor of magnitude 1. -/
theorem truncDiv_mem_Ico {a b p : Int} (hge : -p ≤ a) (hlt : a < p) (h : ¬ (a = -p ∧ b = -1)) :
    -p ≤ truncDiv a b ∧ truncDiv a b < p := by
  have hle : (truncDiv a b).natAbs ≤ a.natAbs := Int.natAbs_tdiv_le_natAbs a b
  refine ⟨by omega, ?_⟩
  by_contra hp
  have hone : b.natAbs = 1 := by
    have hself : a.natAbs / b.natAbs = a.natAbs := by rw [← natAbs_truncDiv]; omega
    exact (Nat.div_eq_self.1 hself).resolve_left (by omega)
  obtain hb | hb : b = 1 ∨ b = -1 := by omega
  · have : truncDiv a b = a := by simp [hb, truncDiv]
    omega
  · have : truncDiv a b = -a := by simp [hb, truncDiv]
    omega

/-- Every quotient but that of the most negative value by -1 is read back as it is. -/
theorem valueOf_wideOf_truncDiv {w : Width} {sg : Signedness} {x y : Wide}
    (h : ¬ (sg = .signed ∧ valueOf sg w x = -2 ^ (w.bits - 1) ∧ valueOf sg w y = -1)) :
    valueOf sg w (wideOf w.bits (truncDiv (valueOf sg w x) (valueOf sg w y))) =
      truncDiv (valueOf sg w x) (valueOf sg w y) := by
  cases sg with
  | unsigned => exact unsignedOf_wideOf_truncDiv w x y
  | signed =>
    obtain ⟨hge, hlt⟩ := signedOf_range w x
    obtain ⟨hqge, hqlt⟩ := truncDiv_mem_Ico hge hlt fun hpair => h ⟨rfl, hpair⟩
    exact signedOf_wideOf w hqge hqlt

/-- Settles O29: the wrapped quotient has the dividend's low W bits, and so its value. -/
theorem signedQuotientOverflowWraps : Obligations.SignedQuotientOverflowWraps := by
  intro s w sg rd re ra rb hs hb
  refine ⟨_, exec_dividing_of_ne_zero hs rfl hb, by simpa using hs, ?_, fun hpair => ?_⟩
  · rintro ⟨rfl, ha, hb1⟩
    rw [State.value_eq] at ha hb1
    rw [State.unsigned_eq, State.unsigned_eq, State.value_eq, reg_writeQuotientRemainder_quotient, hb1]
    have hsame : unsignedOf w (wideOf w.bits (truncDiv (valueOf .signed w (s.reg ra)) (-1))) =
        unsignedOf w (s.reg ra) := by
      rw [unsignedOf_wideOf, ← enc_valueOf .signed w (s.reg ra), ha, enc_truncDiv_neg_one]
    refine ⟨hsame, (valueOf_congr hsame .signed).trans ha, fun hre => ?_⟩
    rw [reg_writeQuotientRemainder_remainder w _ _ s hre, truncRem_neg_one, wideOf_zero]
  · rw [State.value_eq, reg_writeQuotientRemainder_quotient]
    exact valueOf_wideOf_truncDiv hpair

/-! ## Restoring long division over byte limbs (R105) -/

/-- Bit `i` of an image is bit `i` of its value. -/
theorem imageBit_eq_testBit (img : List Byte) (i : Nat) : imageBit img i = (leValue img).testBit i := by
  induction img generalizing i with
  | nil => simp [imageBit, leValue]
  | cons b bs ih =>
    have hcons : leValue (b :: bs) = 2 ^ 8 * leValue bs + b.toNat := add_comm ..
    rw [hcons, Nat.testBit_two_pow_mul_add _ b.isLt]
    split
    · next hi => rw [imageBit, Nat.div_eq_of_lt hi, Nat.mod_eq_of_lt hi]; rfl
    · next hi =>
      obtain ⟨j, rfl⟩ := Nat.exists_eq_add_of_le' (Nat.le_of_not_lt hi)
      rw [Nat.add_sub_cancel, ← ih, imageBit, imageBit, Nat.add_div_right j (by decide), Nat.add_mod_right]
      rfl

/-- One step of the loop: a further bit at the low end, subtracting the divisor when it fits, turns quotient and
remainder of the halved number into those of the number. -/
theorem divMod_of_half {b : Nat} (hb : 0 < b) (m : Nat) :
    (if b ≤ 2 * (m / 2 % b) + m % 2 then (2 * (m / 2 / b) + 1, 2 * (m / 2 % b) + m % 2 - b)
      else (2 * (m / 2 / b), 2 * (m / 2 % b) + m % 2)) = (m / b, m % b) := by
  have hdiv := Nat.mod_add_div (m / 2) b
  have hrem := Nat.mod_lt (m / 2) hb
  split
  · next hle =>
    exact (Prod.ext_iff.2 ((Nat.div_mod_unique hb).2 ⟨by rw [mul_add, mul_left_comm]; omega, by omega⟩)).symm
  · next hlt =>
    exact (Prod.ext_iff.2 ((Nat.div_mod_unique hb).2 ⟨by rw [mul_left_comm]; omega, by omega⟩)).symm

/-- The loop's invariant: after the top `k` of `n` dividend bits, quotient and partial remainder are those of the number
these bits form, so the partial remainder is below the divisor. -/
theorem restoringSteps_eq {img : List Byte} {b n k : Nat} (hb : 0 < b) (hn : leValue img < 2 ^ n) (hk : k ≤ n) :
    restoringSteps img b n k = (leValue img / 2 ^ (n - k) / b, leValue img / 2 ^ (n - k) % b) := by
  induction k with
  | zero => simp [restoringSteps, Nat.div_eq_of_lt hn]
  | succ k ih =>
    have hbit : (imageBit img (n - 1 - k)).toNat = leValue img / 2 ^ (n - (k + 1)) % 2 := by
      rw [imageBit_eq_testBit, Nat.toNat_testBit, Nat.sub_sub, Nat.add_comm 1]
    have htop : leValue img / 2 ^ (n - k) = leValue img / 2 ^ (n - (k + 1)) / 2 := by
      rw [Nat.div_div_eq_div_mul, ← pow_succ, show n - (k + 1) + 1 = n - k by omega]
    rw [restoringSteps, ih (by omega), hbit, htop]
    exact divMod_of_half hb _

/-- Restoring long division divides (43_divide.md R105). -/
theorem restoringDivide_eq (as bs : List Byte) (hb : leValue bs ≠ 0) :
    restoringDivide as bs =
      (leBytes as.length (leValue as / leValue bs), leBytes as.length (leValue as % leValue bs)) := by
  have hn : leValue as < 2 ^ (8 * as.length) := by rw [two_pow_eight_mul]; exact leValue_lt as
  rw [restoringDivide, restoringSteps_eq (Nat.pos_of_ne_zero hb) hn le_rfl]
  simp

/-! ## Division by magnitudes (R106) -/

@[simp] theorem length_negateIf (neg : Bool) (img : List Byte) : (negateIf neg img).length = img.length := by
  cases neg <;> simp [negateIf]

/-- A conditionally negated image holds the integer of that sign and of the image's value as magnitude. -/
theorem leValue_negateIf_modEq (neg : Bool) (img : List Byte) :
    (leValue (negateIf neg img) : Int) ≡ withSign neg (leValue img) [ZMOD 256 ^ img.length] := by
  cases neg with
  | false => rfl
  | true => simpa [negateIf, withSign] using leValue_complementAddCarry_modEq img 1

theorem signBit_eq_decide_signedOf (w : Width) (r : Wide) : signBit w r = decide (signedOf w r < 0) := by
  have hlt : (unsignedOf w r : Int) < 2 ^ w.bits := by exact_mod_cast unsignedOf_lt w r
  rw [signedOf]
  cases signBit w r with
  | false => simp
  | true => simp [hlt]

theorem unsignedOf_modEq_signedOf (w : Width) (r : Wide) :
    (unsignedOf w r : Int) ≡ signedOf w r [ZMOD 256 ^ w.bytes] := by
  have hmod : (2 : Int) ^ w.bits = 256 ^ w.bytes := by exact_mod_cast two_pow_bits_eq_pow_bytes w
  rw [← hmod]
  exact Int.modEq_iff_dvd.2 (dvd_valueOf_sub .signed w r)

/-- What agrees with an integer agrees, negated when the integer is negative, with its magnitude. -/
theorem withSign_modEq_natAbs {m : Nat} {z n : Int} (h : (m : Int) ≡ z [ZMOD n]) :
    withSign (decide (z < 0)) m ≡ z.natAbs [ZMOD n] := by
  by_cases hz : z < 0
  · rw [decide_eq_true hz, Int.ofNat_natAbs_of_nonpos hz.le]
    exact h.neg
  · rw [decide_eq_false hz, Int.natAbs_of_nonneg (Int.not_lt.1 hz)]
    exact h

theorem natAbs_signedOf_lt (w : Width) (r : Wide) : (signedOf w r).natAbs < 2 ^ w.bits := by
  have hle := abs_signedOf_le w r
  have hpos : (0 : Int) < 2 ^ (w.bits - 1) := by positivity
  zify
  rw [w.two_pow_bits_int]
  omega

/-- The image negated when its sign bit is set holds the magnitude of the signed value, read unsigned; that of the most
negative value is `2^(W-1)` (43_divide.md R106). -/
theorem leValue_negateIf_imageSign (w : Width) (r : Wide) :
    leValue (negateIf (imageSign (imageOf w r)) (imageOf w r)) = (signedOf w r).natAbs := by
  have hmod : (leValue (negateIf (imageSign (imageOf w r)) (imageOf w r)) : Int) ≡ (signedOf w r).natAbs
      [ZMOD 256 ^ w.bytes] := by
    have hneg := leValue_negateIf_modEq (imageSign (imageOf w r)) (imageOf w r)
    rw [length_imageOf, leValue_imageOf] at hneg
    refine hneg.trans ?_
    rw [imageSign_imageOf, signBit_eq_decide_signedOf]
    exact withSign_modEq_natAbs (unsignedOf_modEq_signedOf w r)
  rw [← imageOf_wideOf_eq (by simp) hmod, leValue_imageOf, unsignedOf_wideOf, enc_natCast,
    Nat.mod_eq_of_lt (natAbs_signedOf_lt w r)]

theorem withSign_modEq (neg : Bool) {m m' : Nat} {n : Int} (h : (m : Int) ≡ m' [ZMOD n]) :
    withSign neg m ≡ withSign neg m' [ZMOD n] := by
  cases neg with
  | false => exact h
  | true => exact h.neg

/-- The image of an integer of given sign and magnitude is the magnitude's bytes, negated by the sign. -/
theorem imageOf_wideOf_withSign (w : Width) (neg : Bool) (m : Nat) :
    imageOf w (wideOf w.bits (withSign neg m)) = negateIf neg (leBytes w.bytes m) := by
  refine imageOf_wideOf_eq (by simp) ?_
  have hneg := leValue_negateIf_modEq neg (leBytes w.bytes m)
  rw [leValue_leBytes, length_leBytes] at hneg
  refine hneg.trans (withSign_modEq neg ?_)
  push_cast
  exact Int.mod_modEq ..

theorem imageOf_wideOf_natCast (w : Width) (m : Nat) : imageOf w (wideOf w.bits m) = leBytes w.bytes m :=
  imageOf_wideOf_withSign w false m

/-- Restoring long division gives the bytes of the unsigned quotient and remainder. -/
theorem restoringDivide_imageOf (w : Width) (x : Wide) {y : Wide} (hy : unsignedOf w y ≠ 0) :
    restoringDivide (imageOf w x) (imageOf w y) =
      (imageOf w (wideOf w.bits (truncDiv (unsignedOf w x) (unsignedOf w y))),
        imageOf w (wideOf w.bits (truncRem (unsignedOf w x) (unsignedOf w y)))) := by
  rw [restoringDivide_eq _ _ (by rwa [leValue_imageOf])]
  simp only [leValue_imageOf, length_imageOf, truncDiv_natCast, truncRem_natCast, imageOf_wideOf_natCast]

/-- Division by magnitudes gives the bytes of the truncating quotient and of the remainder. -/
theorem restoringDivideSigned_imageOf (w : Width) (x : Wide) {y : Wide} (hy : unsignedOf w y ≠ 0) :
    restoringDivideSigned (imageOf w x) (imageOf w y) =
      (imageOf w (wideOf w.bits (truncDiv (signedOf w x) (signedOf w y))),
        imageOf w (wideOf w.bits (truncRem (signedOf w x) (signedOf w y)))) := by
  have hmagnitude : (signedOf w y).natAbs ≠ 0 := Int.natAbs_ne_zero.2 (valueOf_ne_zero hy .signed)
  rw [restoringDivideSigned, restoringDivide_eq _ _ (by rwa [leValue_negateIf_imageSign]),
    leValue_negateIf_imageSign, leValue_negateIf_imageSign]
  simp only [truncDiv_eq_withSign, truncRem_eq_withSign, imageOf_wideOf_withSign, length_negateIf, length_imageOf,
    imageSign_imageOf, signBit_eq_decide_signedOf]

/-- Settles O53: the loop divides the unsigned values, and the magnitudes of the signed ones. -/
theorem restoringDivisionGivesQuotientAndRemainder : Obligations.RestoringDivisionGivesQuotientAndRemainder := by
  intro s t u w rd re ra rb hs hb hre ht hu
  rw [exec_dividing_of_ne_zero hs rfl hb] at ht hu
  cases ht
  cases hu
  simp only [reg_writeQuotientRemainder_quotient, reg_writeQuotientRemainder_remainder w _ _ s hre]
  exact ⟨(restoringDivide_imageOf w (s.reg ra) hb).symm, (restoringDivideSigned_imageOf w (s.reg ra) hb).symm⟩

end Sys2Proof.Machine

/-! PROOFS. SHL and SHR (44_shift.md): the number and the bits each writes (R110, R111), amounts at or above the width
(R112), the two-stage byte shifter, which gives the same bytes (R113), and the single bit that one shifted left holds
(R114 (a)). -/

namespace Sys2Proof.Machine

/-! ## What the two commands write in a running block -/

section Shifts
variable (w : Width) (sg : Signedness) (rd ra : RegNum) (n : Imm16) (s : State)

@[simp] theorem reg_effectOf_shl :
    (effectOf (.shl w sg rd ra n) s).reg rd = wideOf w.bits ((unsignedOf w (s.reg ra) : Int) * 2 ^ n.toNat) :=
  State.reg_writeV_same ..

@[simp] theorem reg_effectOf_shr :
    (effectOf (.shr w sg rd ra n) s).reg rd = wideOf w.bits (valueOf sg w (s.reg ra) / 2 ^ n.toNat) := by
  rw [← floorDiv_two_pow]
  exact State.reg_writeV_same ..

theorem onlyRegister_effectOf_shl : OnlyRegister s (effectOf (.shl w sg rd ra n) s) rd := onlyRegister_writeV ..

theorem onlyRegister_effectOf_shr : OnlyRegister s (effectOf (.shr w sg rd ra n) s) rd := onlyRegister_writeV ..

end Shifts

/-! ## The bits of an encoding -/

/-- Bit `i` of an encoding is the parity of the integer divided by `2^i`, rounded down, for negative integers too. -/
theorem testBit_enc {m i : Nat} (h : i < m) (z : Int) : (enc m z).testBit i = decide (z / 2 ^ i % 2 = 1) := by
  have hpow : (2 : Int) ^ m = 2 ^ i * (2 * 2 ^ (m - i - 1)) := by
    rw [← pow_succ', ← pow_add]
    congr 1
    omega
  have hsplit : z = enc m z + 2 ^ i * (2 * (2 ^ (m - i - 1) * (z / 2 ^ m))) := by
    have hdiv := Int.emod_add_mul_ediv z (2 ^ m)
    rw [← enc_cast] at hdiv
    linear_combination -hdiv + (z / 2 ^ m) * hpow
  have hparity : z / 2 ^ i % 2 = (enc m z / 2 ^ i % 2 : Nat) := by
    conv_lhs => rw [hsplit]
    rw [Int.add_mul_ediv_left _ _ (by positivity), Int.add_mul_emod_self_left]
    push_cast
    rfl
  rw [Nat.testBit_eq_decide_div_mod_eq, hparity]
  exact decide_eq_decide.2 (by exact_mod_cast Iff.rfl)

theorem getLsbD_wideOf_bits (w : Width) (z : Int) (i : Nat) :
    (wideOf w.bits z).getLsbD i = (decide (i < w.bits) && (enc w.bits z).testBit i) := by
  rw [← unsignedOf_wideOf, testBit_unsignedOf, ← Bool.and_assoc, Bool.and_self]
  by_cases h : i < w.bits
  · simp [h]
  · simp [h, getLsbD_wideOf_of_le w.bits_le (Nat.le_of_not_lt h)]

/-! ## SHL (R110) -/

theorem enc_mul_two_pow (m u n : Nat) : enc m ((u : Int) * 2 ^ n) = u * 2 ^ n % 2 ^ m := by
  rw [← enc_natCast]
  push_cast
  rfl

theorem getLsbD_wideOf_mul_two_pow (w : Width) (r : Wide) (n i : Nat) :
    (wideOf w.bits ((unsignedOf w r : Int) * 2 ^ n)).getLsbD i =
      (decide (i < w.bits) && decide (n ≤ i) && r.getLsbD (i - n)) := by
  rw [getLsbD_wideOf_bits, enc_mul_two_pow, Nat.testBit_mod_two_pow, Nat.testBit_mul_two_pow, testBit_unsignedOf]
  by_cases h : i < w.bits
  · simp [h, show i - n < w.bits by omega]
  · simp [h]

/-- Settles O30: a product by `2^n` is the source's bits `n` places up, cut off at the width. -/
theorem shlMovesBitsUp : Obligations.ShlMovesBitsUp := by
  intro s w sg rd ra n hs
  refine ⟨_, exec_running _ hs, ?_, fun i => ?_, onlyRegister_effectOf_shl ..⟩
  · rw [reg_effectOf_shl, toNat_wideOf_bits, enc_mul_two_pow, State.unsigned_eq]
  · rw [reg_effectOf_shl, getLsbD_wideOf_mul_two_pow]

/-! ## SHR (R111) -/

theorem valueOf_lt_zero_iff (sg : Signedness) (w : Width) (r : Wide) :
    valueOf sg w r < 0 ↔ sg = .signed ∧ signBit w r = true := by
  cases sg with
  | unsigned => simp
  | signed => simp [valueOf, signBit_eq_decide_signedOf]

theorem valueOf_bounds (sg : Signedness) (w : Width) (r : Wide) :
    -2 ^ w.bits ≤ valueOf sg w r ∧ valueOf sg w r < 2 ^ w.bits := by
  have hpos : (0 : Int) < 2 ^ (w.bits - 1) := by positivity
  cases sg with
  | unsigned =>
    have hlt : (unsignedOf w r : Int) < 2 ^ w.bits := by exact_mod_cast unsignedOf_lt w r
    rw [valueOf_unsigned]
    omega
  | signed =>
    obtain ⟨hge, hlt⟩ := signedOf_range w r
    rw [valueOf, w.two_pow_bits_int]
    omega

/-- Dividing by `2^W` or more leaves the sign alone: -1 or 0 (44_shift.md R112). -/
theorem valueOf_ediv_two_pow_of_bits_le {w : Width} {k : Nat} (h : w.bits ≤ k) (sg : Signedness) (r : Wide) :
    valueOf sg w r / 2 ^ k = if valueOf sg w r < 0 then -1 else 0 := by
  obtain ⟨hge, hlt⟩ := valueOf_bounds sg w r
  have hpow : (2 : Int) ^ w.bits ≤ 2 ^ k := by gcongr; decide
  split
  · next hneg => exact Int.ediv_eq_neg_one_of_neg_of_le hneg (by omega)
  · next hneg => exact Int.ediv_eq_zero_of_lt (by omega) (by omega)

theorem getLsbD_wideOf_ediv_two_pow (w : Width) (sg : Signedness) (r : Wide) (n i : Nat) :
    (wideOf w.bits (valueOf sg w r / 2 ^ n)).getLsbD i =
      (decide (i < w.bits) &&
        if i + n < w.bits then r.getLsbD (i + n) else decide (valueOf sg w r < 0)) := by
  rw [getLsbD_wideOf_bits]
  by_cases hi : i < w.bits
  · have hdiv : valueOf sg w r / 2 ^ n / 2 ^ i = valueOf sg w r / 2 ^ (i + n) := by
      rw [Int.ediv_ediv_of_nonneg (by positivity), ← pow_add, add_comm]
    rw [testBit_enc hi, hdiv]
    split
    · next hin => rw [← testBit_enc hin, enc_valueOf, testBit_unsignedOf, decide_eq_true hin, Bool.true_and]
    · next hin =>
      rw [valueOf_ediv_two_pow_of_bits_le (Nat.le_of_not_lt hin)]
      by_cases hneg : valueOf sg w r < 0 <;> simp [hneg]
  · simp [hi]

/-- Settles O31: bit `i` of a quotient by `2^n` is bit `i + n` of the value, whose bits from the width up are its sign. -/
theorem shrMovesBitsDownBySignedness : Obligations.ShrMovesBitsDownBySignedness := by
  intro s w sg rd ra n hs
  refine ⟨_, exec_running _ hs, ?_, fun i => ?_, onlyRegister_effectOf_shr ..⟩
  · rw [reg_effectOf_shr, toNat_wideOf_bits, State.value_eq]
  · rw [reg_effectOf_shr, getLsbD_wideOf_ediv_two_pow]
    simp only [valueOf_lt_zero_iff, Bool.decide_and, Bool.decide_eq_true, signBit]

/-! ## Amounts at or above the width (R112) -/

theorem enc_neg_one (m : Nat) : enc m (-1) = 2 ^ m - 1 := by
  have hpos : 0 < 2 ^ m := by positivity
  have hneg := enc_neg_natCast (m := m) (b := 1) hpos
  rwa [Nat.mod_eq_of_lt (by omega), Nat.cast_one] at hneg

/-- Settles O32: the product is a multiple of the modulus, and the quotient is the sign alone. -/
theorem shiftsByTheWidthOrMore : Obligations.ShiftsByTheWidthOrMore := by
  intro s w sg rd ra n hs hn
  refine ⟨⟨_, exec_running _ hs, ?_⟩, ⟨_, exec_running _ hs, ?_⟩⟩
  · have hdvd : (2 : Int) ^ w.bits ∣ (unsignedOf w (s.reg ra) : Int) * 2 ^ n.toNat - 0 := by
      rw [sub_zero]
      exact (pow_dvd_pow 2 hn).mul_left _
    rw [reg_effectOf_shl, wideOf, enc_congr hdvd]
    exact wideOf_zero _
  · rw [reg_effectOf_shr, toNat_wideOf_bits, valueOf_ediv_two_pow_of_bits_le hn]
    simp only [valueOf_lt_zero_iff, signBit]
    rw [apply_ite (enc w.bits), enc_neg_one]
    rfl

/-! ## One shifted left (R114 (a)) -/

theorem toNat_reg_effectOf_shl_one {s : State} {w : Width} {sg : Signedness} {a b : RegNum} {i : Imm16}
    (hi : i.toNat < w.bits) (ha : unsignedOf w (s.reg a) = 1) :
    ((effectOf (.shl w sg b a i) s).reg b).toNat = 2 ^ i.toNat := by
  rw [reg_effectOf_shl, toNat_wideOf_bits, enc_mul_two_pow, ha, one_mul]
  exact Nat.mod_eq_of_lt (Nat.pow_lt_pow_right (by decide) hi)

theorem x_effectOf_btst {w : Width} {i : Imm16} (hi : i.toNat < w.bits) (sg : Signedness) (ra : RegNum) (s : State) :
    (effectOf (.btst w sg ra i) s).x = bitCode ((s.reg ra).getLsbD i.toNat) := by
  simp [effectOf, indexing, hi]

/-- The highest set bit of a register that holds a power of two is the exponent. -/
theorem highestSetBit_of_toNat_eq_two_pow {w : Width} {r : Wide} {i : Nat} (hi : i < w.bits) (hr : r.toNat = 2 ^ i) :
    highestSetBit w r = some i := by
  have hvalue : unsignedOf w r = 2 ^ i := by
    rw [unsignedOf, hr, Nat.mod_eq_of_lt (Nat.pow_lt_pow_right (by decide) hi)]
  rw [highestSetBit, hvalue, if_neg (by positivity), Nat.log2_two_pow]

/-- Settles O39: the shift writes `2^i`, and does not fault. -/
theorem shiftedOneHasItsBitSetAndHighest : Obligations.ShiftedOneHasItsBitSetAndHighest := by
  intro s t u v w sg a b i hs hi ha ht hu hv
  obtain rfl := eq_effectOf_of_exec hs ht
  have hreg : ((effectOf (.shl w sg b a i) s).reg b).toNat = 2 ^ i.toNat := toNat_reg_effectOf_shl_one hi ha
  obtain ⟨-, -, hfault, -⟩ := onlyRegister_effectOf_shl w sg b a i s
  obtain rfl := eq_effectOf_of_exec (hfault.trans hs) hu
  obtain rfl := eq_effectOf_of_exec (hfault.trans hs) hv
  constructor
  · rw [x_effectOf_btst hi, BitVec.getLsbD, hreg, Nat.testBit_two_pow_self]
    rfl
  · have hx : (effectOf (.hsb w sg b) (effectOf (.shl w sg b a i) s)).x =
        indexCode (highestSetBit w ((effectOf (.shl w sg b a i) s).reg b)) := rfl
    rw [hx, highestSetBit_of_toNat_eq_two_pow hi hreg, indexCode, BitVec.ofNat_toNat, BitVec.setWidth_eq]

/-! ## The two-stage shifter over byte limbs (R113) -/

/-- Bit `q` of the source as the shifter sees it: a bit of the low W, and the fill bit on either side of them. -/
def sourceBit (w : Width) (r : Wide) (fill : Bool) (q : Int) : Bool :=
  if 0 ≤ q ∧ q < w.bits then r.getLsbD q.toNat else fill

/-! The two stages run over the byte indexes as integers; below they are the same bytes, index by index. -/

theorem limbShiftLeft_of_le {img : List Byte} {n : Nat} (h : 8 * img.length ≤ n) :
    limbShiftLeft img n = (List.range img.length).map fun _ => 0 := by
  rw [limbShiftLeft, if_pos h, List.map_const', List.length_range]

theorem limbShiftLeft_of_lt {img : List Byte} {n : Nat} (h : n < 8 * img.length) :
    limbShiftLeft img n = (List.range img.length).map fun k : Nat =>
      (sourceByte img 0 ((k : Int) - (n / 8 : Nat)) <<< (n % 8)) |||
        (sourceByte img 0 ((k : Int) - (n / 8 : Nat) - 1) >>> (8 - n % 8)) := by
  rw [limbShiftLeft, if_neg (Nat.not_le.2 h)]
  simp only [bind_pure_comp, List.map_eq_map, List.map_map]
  rfl

theorem limbShiftRight_of_le {img : List Byte} {n : Nat} (h : 8 * img.length ≤ n) (f : Byte) :
    limbShiftRight f img n = (List.range img.length).map fun _ => f := by
  rw [limbShiftRight, if_pos h, List.map_const', List.length_range]

theorem limbShiftRight_of_lt {img : List Byte} {n : Nat} (h : n < 8 * img.length) (f : Byte) :
    limbShiftRight f img n = (List.range img.length).map fun k : Nat =>
      (sourceByte img f ((k : Int) + (n / 8 : Nat)) >>> (n % 8)) |||
        (sourceByte img f ((k : Int) + (n / 8 : Nat) + 1) <<< (8 - n % 8)) := by
  rw [limbShiftRight, if_neg (Nat.not_le.2 h)]
  simp only [bind_pure_comp, List.map_eq_map, List.map_map]
  rfl

section Shifter
variable {w : Width} {r r' : Wide} {f : Byte} {fill : Bool}

/-- The bits of a source byte, the bytes of the fill included, are the source bits at their places. -/
theorem getLsbD_sourceByte (hf : ∀ p < 8, f.getLsbD p = fill) (a : Int) {p : Nat} (hp : p < 8) :
    (sourceByte (imageOf w r) f a).getLsbD p = sourceBit w r fill (8 * a + p) := by
  have hbits := w.eight_bytes
  rw [sourceByte, sourceBit, length_imageOf]
  by_cases ha : 0 ≤ a ∧ a < w.bytes
  · have hbyte : (imageOf w r).getD a.toNat 0 = byteOf r a.toNat := by
      simp [imageOf, show a.toNat < w.bytes by omega]
    have hplace : (8 * a + p).toNat = 8 * a.toNat + p := by omega
    rw [if_pos ha, if_pos (by omega), hbyte, hplace, getLsbD_byteOf, decide_eq_true hp, Bool.true_and]
  · rw [if_neg ha, if_neg (by omega), hf p hp]

/-- The idea of R113: a byte shifted down by `c`, joined with the next byte shifted up by the rest of eight, is the
eight source bits from place `c` of the first byte upwards. In the right shift `c` is the bit count, in the left shift eight
less it. -/
theorem getLsbD_joined (hf : ∀ p < 8, f.getLsbD p = fill) {a b : Int} {c d p : Nat} (hb : b = a + 1) (hd : c + d = 8)
    (hp : p < 8) :
    ((sourceByte (imageOf w r) f a >>> c) ||| (sourceByte (imageOf w r) f b <<< d)).getLsbD p =
      sourceBit w r fill (8 * a + c + p) := by
  rw [BitVec.getLsbD_or, BitVec.getLsbD_ushiftRight, BitVec.getLsbD_shiftLeft]
  by_cases hpd : p < d
  · rw [getLsbD_sourceByte hf a (by omega)]
    simp [hpd, add_assoc]
  · have hplace : 8 * b + (p - d : Nat) = 8 * a + c + p := by omega
    rw [BitVec.getLsbD_of_ge _ _ (by omega), getLsbD_sourceByte hf b (by omega), hplace]
    simp [hp, hpd]

theorem imageOf_eq_map_of_bits {g : Nat → Byte}
    (h : ∀ k < w.bytes, ∀ p < 8, r'.getLsbD (8 * k + p) = (g k).getLsbD p) :
    imageOf w r' = (List.range w.bytes).map g := by
  refine List.map_congr_left fun k hk => BitVec.eq_of_getLsbD_eq fun p hp => ?_
  rw [getLsbD_byteOf, decide_eq_true hp, Bool.true_and, h k (List.mem_range.1 hk) p hp]

/-- A register whose low W bits are the source bits from `n` up has the bytes of the right shift by `n`. -/
theorem imageOf_eq_limbShiftRight (hf : ∀ p < 8, f.getLsbD p = fill) {n : Nat}
    (h : ∀ i < w.bits, r'.getLsbD i = sourceBit w r fill (i + n)) :
    imageOf w r' = limbShiftRight f (imageOf w r) n := by
  have hbits := w.eight_bytes
  obtain hn | hn := le_or_gt w.bits n
  · rw [limbShiftRight_of_le (by simpa using hn), length_imageOf]
    refine imageOf_eq_map_of_bits fun k hk p hp => ?_
    rw [h _ (by omega), hf p hp, sourceBit, if_neg (by omega)]
  · rw [limbShiftRight_of_lt (by simpa using hn), length_imageOf]
    refine imageOf_eq_map_of_bits fun k hk p hp => ?_
    have hplace : ((8 * k + p : Nat) : Int) + n = 8 * (k + (n / 8 : Nat)) + (n % 8 : Nat) + p := by omega
    rw [h _ (by omega), getLsbD_joined hf rfl (by omega) hp, hplace]

/-- A register whose low W bits are the source bits from `-n` up, zeros standing below the source, has the bytes of the
left shift by `n`. -/
theorem imageOf_eq_limbShiftLeft {n : Nat} (h : ∀ i < w.bits, r'.getLsbD i = sourceBit w r false (i - n)) :
    imageOf w r' = limbShiftLeft (imageOf w r) n := by
  have hbits := w.eight_bytes
  have hzero : ∀ p < 8, (0 : Byte).getLsbD p = false := fun p _ => BitVec.getLsbD_zero
  obtain hn | hn := le_or_gt w.bits n
  · rw [limbShiftLeft_of_le (by simpa using hn), length_imageOf]
    refine imageOf_eq_map_of_bits fun k hk p hp => ?_
    rw [h _ (by omega), hzero p hp, sourceBit, if_neg (by omega)]
  · rw [limbShiftLeft_of_lt (by simpa using hn), length_imageOf]
    refine imageOf_eq_map_of_bits fun k hk p hp => ?_
    have hplace : ((8 * k + p : Nat) : Int) - n = 8 * (k - (n / 8 : Nat) - 1) + (8 - n % 8 : Nat) + p := by omega
    rw [h _ (by omega), BitVec.or_comm, getLsbD_joined hzero (by omega) (by omega) hp, hplace]

end Shifter

theorem fillByte_imageOf (sg : Signedness) (w : Width) (r : Wide) :
    fillByte sg (imageOf w r) = if valueOf sg w r < 0 then 0xFF else 0x00 := by
  rw [fillByte, imageSign_imageOf]
  exact if_congr (valueOf_lt_zero_iff sg w r).symm rfl rfl

/-- Every bit of the fill byte is the sign of the value the command shifts (44_shift.md R113). -/
theorem getLsbD_fillByte (sg : Signedness) (w : Width) (r : Wide) {p : Nat} (hp : p < 8) :
    (fillByte sg (imageOf w r)).getLsbD p = decide (valueOf sg w r < 0) := by
  have hones : ∀ q < 8, (0xFF : Byte).getLsbD q = true := by decide
  rw [fillByte_imageOf]
  split
  · next hneg => rw [hones p hp, decide_eq_true hneg]
  · next hneg => rw [decide_eq_false hneg]; exact BitVec.getLsbD_zero

/-- Settles O54: bit for bit both commands write source bits `n` places away, and the shifter joins them from bytes. -/
theorem limbShifterGivesTheShifts : Obligations.LimbShifterGivesTheShifts := by
  intro s t u w sg rd ra n hs ht hu
  obtain rfl := eq_effectOf_of_exec hs ht
  obtain rfl := eq_effectOf_of_exec hs hu
  constructor
  · refine imageOf_eq_limbShiftLeft fun i hi => ?_
    rw [reg_effectOf_shl, getLsbD_wideOf_mul_two_pow, decide_eq_true hi, Bool.true_and, sourceBit]
    by_cases hn : n.toNat ≤ i
    · have hplace : ((i : Int) - n.toNat).toNat = i - n.toNat := by omega
      rw [if_pos (by omega), hplace, decide_eq_true hn, Bool.true_and]
    · rw [if_neg (by omega), decide_eq_false hn, Bool.false_and]
  · refine imageOf_eq_limbShiftRight (fun _ hp => getLsbD_fillByte sg w _ hp) fun i hi => ?_
    rw [reg_effectOf_shr, getLsbD_wideOf_ediv_two_pow, decide_eq_true hi, Bool.true_and, sourceBit]
    exact if_congr (by omega) rfl rfl

end Sys2Proof.Machine

/-! PROOFS. CMP (45_compare.md): the order it writes to X (R120), the six operators read from X (R124), where the signed
and the unsigned order differ (R125), and the scans over byte limbs, which give the same orders (R121, R122) and the
highest set bit (46_bit_utilities.md R130). -/

namespace Sys2Proof.Machine

/-! ## What CMP and HSB write in a running block -/

section Results
variable (w : Width) (sg : Signedness) (ra rb : RegNum) (s : State)

@[simp] theorem x_effectOf_cmp :
    (effectOf (.cmp w sg ra rb) s).x = orderCode (orderOf (valueOf sg w (s.reg ra)) (valueOf sg w (s.reg rb))) := rfl

@[simp] theorem x_effectOf_hsb :
    (effectOf (.hsb w sg ra) s).x = indexCode (highestSetBit w (s.reg ra)) := rfl

theorem onlyScalar_effectOf_cmp : OnlyScalar s (effectOf (.cmp w sg ra rb) s) := onlyScalar_setX ..

end Results

/-! ## The order of two integers -/

theorem orderOf_of_lt {a b : Int} (h : a < b) : orderOf a b = .lt := if_pos h

@[simp] theorem orderOf_self (a : Int) : orderOf a a = .eq := by simp [orderOf]

theorem orderOf_of_gt {a b : Int} (h : b < a) : orderOf a b = .gt := by
  rw [orderOf, if_neg h.not_gt, if_neg h.ne']

theorem orderOf_eq_eq_iff {a b : Int} : orderOf a b = .eq ↔ a = b := by
  obtain h | rfl | h := lt_trichotomy a b
  · simp [orderOf_of_lt h, h.ne]
  · simp
  · simp [orderOf_of_gt h, h.ne']

@[simp] theorem orderOf_add_right (a b c : Int) : orderOf (a + c) (b + c) = orderOf a b := by
  simp only [orderOf, Int.add_lt_add_iff_right, add_left_inj]

/-! ## The code in X (R120, R124) -/

theorem orderCode_cases (o : Ordering) : orderCode o = 0xFFFF ∨ orderCode o = 0x0000 ∨ orderCode o = 0x0001 := by
  cases o <;> decide

theorem orderCode_eq_zero_iff {o : Ordering} : orderCode o = 0x0000 ↔ o = .eq := by cases o <;> decide

/-- The operator read from the code of an order is that of the two integers (45_compare.md R124). -/
theorem readX_orderCode_orderOf (r : Relation) (a b : Int) : r.readX (orderCode (orderOf a b)) = r.holds a b := by
  obtain h | rfl | h := lt_trichotomy a b
  · rw [orderOf_of_lt h]
    cases r <;> simp [Relation.readX, Relation.holds, orderCode, h, h.le, h.ne, h.not_gt]
  · rw [orderOf_self]
    cases r <;> simp [Relation.readX, Relation.holds, orderCode]
  · rw [orderOf_of_gt h]
    cases r <;> simp [Relation.readX, Relation.holds, orderCode, h, h.le, h.ne', h.not_gt]

/-! ## Equal values and equal images (R120) -/

theorem valueOf_eq_iff {sg : Signedness} {w : Width} {x y : Wide} :
    valueOf sg w x = valueOf sg w y ↔ unsignedOf w x = unsignedOf w y := by
  refine ⟨fun h => ?_, fun h => valueOf_congr h sg⟩
  rw [← enc_valueOf sg w x, h, enc_valueOf]

theorem imageOf_eq_iff {w : Width} {x y : Wide} : imageOf w x = imageOf w y ↔ unsignedOf w x = unsignedOf w y := by
  constructor
  · intro h
    rw [← leValue_imageOf, h, leValue_imageOf]
  · intro h
    rw [imageOf_eq_leBytes, h, imageOf_eq_leBytes]

/-- Settles O33: the three orders of two integers, and a value is decided by the image's bytes. -/
theorem cmpWritesTheOrder : Obligations.CmpWritesTheOrder := by
  intro s w sg ra rb hs
  simp only [State.value_eq]
  refine ⟨_, exec_running _ hs, fun h => ?_, fun h => ?_, fun h => ?_, ?_, onlyScalar_effectOf_cmp ..⟩
  · rw [x_effectOf_cmp, orderOf_of_lt h, orderCode]
  · rw [x_effectOf_cmp, h, orderOf_self, orderCode]
  · rw [x_effectOf_cmp, orderOf_of_gt h, orderCode]
  · rw [x_effectOf_cmp, orderCode_eq_zero_iff, orderOf_eq_eq_iff, valueOf_eq_iff, imageOf_eq_iff]

/-! ## Where the signed and the unsigned order differ (R125) -/

/-- With equal sign bits both orders compare the same two numbers, up to a common summand. -/
theorem orderOf_signed_of_signBit_eq {w : Width} {x y : Wide} (h : signBit w x = signBit w y) :
    orderOf (signedOf w x) (signedOf w y) = orderOf (unsignedOf w x) (unsignedOf w y) := by
  rw [signedOf, signedOf, h, sub_eq_add_neg, sub_eq_add_neg, orderOf_add_right]

/-- An operand with its sign bit set is below one without it as a signed value, and above it as an unsigned value. -/
theorem signedOf_lt_and_unsignedOf_lt {w : Width} {x y : Wide} (hx : signBit w x = true) (hy : signBit w y = false) :
    signedOf w x < signedOf w y ∧ unsignedOf w y < unsignedOf w x := by
  constructor
  · rw [signBit_eq_decide_signedOf, decide_eq_true_iff] at hx
    rw [signBit_eq_decide_signedOf, decide_eq_false_iff_not] at hy
    omega
  · rw [signBit_eq, decide_eq_true_iff] at hx
    rw [signBit_eq, decide_eq_false_iff_not] at hy
    omega

/-- Settles O34: the operators are read from the code of an order; equal sign bits leave the order alone, and of two
different ones the set bit is the smaller operand signed and the larger one unsigned. -/
theorem signedAndUnsignedOrdersDisagreeOnSignCrossing :
    Obligations.SignedAndUnsignedOrdersDisagreeOnSignCrossing := by
  intro s w ra rb hs
  refine ⟨_, _, exec_running _ hs, exec_running _ hs, orderCode_cases _,
    fun r => ⟨readX_orderCode_orderOf .., readX_orderCode_orderOf ..⟩, fun h => ?_, fun h => ?_⟩
  · simp only [x_effectOf_cmp, valueOf, orderOf_signed_of_signBit_eq h]
  · simp only [x_effectOf_cmp, valueOf]
    cases ha : signBit w (s.reg ra) with
    | true =>
      have hb : signBit w (s.reg rb) = false := by simpa [ha] using h
      obtain ⟨hsigned, hunsigned⟩ := signedOf_lt_and_unsignedOf_lt ha hb
      rw [orderOf_of_lt hsigned, orderOf_of_gt (Int.ofNat_lt.2 hunsigned)]
      exact .inl ⟨rfl, rfl⟩
    | false =>
      have hb : signBit w (s.reg rb) = true := by simpa [ha] using h
      obtain ⟨hsigned, hunsigned⟩ := signedOf_lt_and_unsignedOf_lt hb ha
      rw [orderOf_of_gt hsigned, orderOf_of_lt (Int.ofNat_lt.2 hunsigned)]
      exact .inr ⟨rfl, rfl⟩

/-! ## The scan for the order over byte limbs (R121, R122) -/

theorem leValue_concat (bs : List Byte) (b : Byte) : leValue (bs ++ [b]) = leValue bs + 256 ^ bs.length * b.toNat := by
  rw [leValue_append, leValue, leValue, Nat.mul_zero, Nat.add_zero]

/-- A smaller top byte makes a smaller value, whatever the bytes below it. -/
theorem leValue_concat_lt {as bs : List Byte} (hl : as.length = bs.length) {a b : Byte} (hab : a.toNat < b.toNat) :
    leValue (as ++ [a]) < leValue (bs ++ [b]) := by
  rw [leValue_concat, leValue_concat, hl]
  calc leValue as + 256 ^ bs.length * a.toNat
      < 256 ^ bs.length * (a.toNat + 1) := by rw [mul_add_one, add_comm]; gcongr; exact hl ▸ leValue_lt as
    _ ≤ 256 ^ bs.length * b.toNat := by gcongr; exact hab
    _ ≤ leValue bs + 256 ^ bs.length * b.toNat := Nat.le_add_left ..

/-- The scan from the top byte gives the order of the values (45_compare.md R121). -/
theorem scanCompare_eq_orderOf {as bs : List Byte} (hl : as.length = bs.length) :
    scanCompare as bs = orderOf (leValue as.reverse) (leValue bs.reverse) := by
  induction as generalizing bs with
  | nil =>
    rw [List.eq_nil_of_length_eq_zero hl.symm, orderOf_self]
    rfl
  | cons a as ih =>
    obtain ⟨b, bs, rfl⟩ := List.exists_cons_of_length_eq_add_one hl.symm
    have htail : as.length = bs.length := Nat.succ.inj hl
    have hrev : as.reverse.length = bs.reverse.length := by simpa using htail
    rw [scanCompare, List.reverse_cons, List.reverse_cons]
    split
    · next hab =>
      rw [ih htail, leValue_concat, leValue_concat, hab, hrev, Nat.cast_add, Nat.cast_add, orderOf_add_right]
    · next hab =>
      split
      · next hlt => rw [orderOf_of_lt (Int.ofNat_lt.2 (leValue_concat_lt hrev hlt))]
      · next hlt =>
        have hgt : b.toNat < a.toNat := by
          have hne : a.toNat ≠ b.toNat := fun h => hab (BitVec.eq_of_toNat_eq h)
          omega
        rw [orderOf_of_gt (Int.ofNat_lt.2 (leValue_concat_lt hrev.symm hgt))]

theorem limbCompareUnsigned_imageOf (w : Width) (x y : Wide) :
    limbCompareUnsigned (imageOf w x) (imageOf w y) = orderOf (unsignedOf w x) (unsignedOf w y) := by
  rw [limbCompareUnsigned, scanCompare_eq_orderOf (by simp), List.reverse_reverse, List.reverse_reverse,
    leValue_imageOf, leValue_imageOf]

@[simp] theorem length_flipTop (l : List Byte) : (flipTop l).length = l.length := by
  cases l <;> rfl

/-- Inverting bit 7 of a byte reads it as a signed byte and adds 128. -/
theorem toNat_xor_top : ∀ b : Byte, ((b ^^^ 0x80).toNat : Int) = b.toNat - 256 * (b.getLsbD 7).toNat + 128 := by
  decide

/-- Inverting the top bit of an image reads it as a signed number and adds half its modulus (45_compare.md R122). -/
theorem leValue_flipTop {img : List Byte} (h : img ≠ []) :
    (leValue (flipTop img.reverse).reverse : Int) =
      leValue img - 256 ^ img.length * (imageSign img).toNat + 128 * 256 ^ (img.length - 1) := by
  obtain ⟨bs, b, rfl⟩ := (List.eq_nil_or_concat' img).resolve_left h
  have hflip : (flipTop (bs ++ [b]).reverse).reverse = bs ++ [b ^^^ 0x80] := by simp [flipTop]
  have hsign : imageSign (bs ++ [b]) = b.getLsbD 7 := by simp [imageSign]
  rw [hflip, hsign, leValue_concat, leValue_concat, List.length_append, List.length_singleton, Nat.add_sub_cancel,
    pow_succ, Nat.cast_add, Nat.cast_mul, toNat_xor_top]
  push_cast
  ring

theorem leValue_flipTop_imageOf (w : Width) (r : Wide) :
    (leValue (flipTop (imageOf w r).reverse).reverse : Int) = signedOf w r + 128 * 256 ^ (w.bytes - 1) := by
  have hne : imageOf w r ≠ [] := by
    have hbits := w.eight_bytes
    have hpos := w.bits_pos
    rw [← List.length_pos_iff, length_imageOf]
    omega
  have hmod : (2 : Int) ^ w.bits = 256 ^ w.bytes := by exact_mod_cast two_pow_bits_eq_pow_bytes w
  rw [leValue_flipTop hne, length_imageOf, leValue_imageOf, imageSign_imageOf, signedOf, hmod]

theorem limbCompareSigned_imageOf (w : Width) (x y : Wide) :
    limbCompareSigned (imageOf w x) (imageOf w y) = orderOf (signedOf w x) (signedOf w y) := by
  rw [limbCompareSigned, scanCompare_eq_orderOf (by simp), leValue_flipTop_imageOf, leValue_flipTop_imageOf,
    orderOf_add_right]

/-! ## The scan for the highest set bit over byte limbs (46_bit_utilities.md R130) -/

/-- The largest set bit index of a number; zero has none. -/
def highestBit (v : Nat) : Option Nat := if v = 0 then none else some v.log2

theorem highestSetBit_eq_highestBit (w : Width) (r : Wide) : highestSetBit w r = highestBit (unsignedOf w r) := rfl

@[simp] theorem highestBit_zero : highestBit 0 = none := rfl

theorem highestBit_of_ne_zero {v : Nat} (h : v ≠ 0) : highestBit v = some v.log2 := if_neg h

/-- A number's highest set bit is that of its upper part, unless the upper part is zero. -/
theorem highestBit_add_two_pow_mul {lo k hi : Nat} (hlo : lo < 2 ^ k) (hhi : hi ≠ 0) :
    highestBit (lo + 2 ^ k * hi) = some (k + hi.log2) := by
  have hpos : 0 < 2 ^ k * hi := Nat.mul_pos (by positivity) (Nat.pos_of_ne_zero hhi)
  obtain ⟨hle, hlt⟩ := (Nat.log2_eq_iff hhi).1 rfl
  rw [highestBit_of_ne_zero (by omega), Option.some_inj, Nat.log2_eq_iff (by omega)]
  constructor
  · calc 2 ^ (k + hi.log2) = 2 ^ k * 2 ^ hi.log2 := pow_add ..
      _ ≤ 2 ^ k * hi := by gcongr
      _ ≤ lo + 2 ^ k * hi := Nat.le_add_left ..
  · calc lo + 2 ^ k * hi < 2 ^ k * (hi + 1) := by rw [mul_add_one, add_comm]; gcongr
      _ ≤ 2 ^ k * 2 ^ (hi.log2 + 1) := by gcongr; exact hlt
      _ = 2 ^ (k + hi.log2 + 1) := by rw [← pow_add, add_assoc]

theorem highestBitBelow_eq (b : Byte) (n : Nat) : highestBitBelow b n = highestBit (b.toNat % 2 ^ n) := by
  induction n with
  | zero => simp [highestBitBelow, Nat.mod_one]
  | succ n ih =>
    rw [highestBitBelow, Nat.mod_pow_succ, ← Nat.toNat_testBit, BitVec.getLsbD]
    cases b.toNat.testBit n with
    | false => simpa using ih
    | true =>
      have hlow : b.toNat % 2 ^ n < 2 ^ n := Nat.mod_lt _ (by positivity)
      rw [if_pos rfl, Bool.toNat_true, highestBit_add_two_pow_mul hlow one_ne_zero]
      rfl

theorem highestBitBelow_eight (b : Byte) : highestBitBelow b 8 = highestBit b.toNat := by
  rw [highestBitBelow_eq, Nat.mod_eq_of_lt b.isLt]

/-- The scan gives the highest set bit of the bytes it looks at (46_bit_utilities.md R130). -/
theorem scanHighestBit_eq {img : List Byte} {n : Nat} (hn : n ≤ img.length) :
    scanHighestBit img n = highestBit (leValue (img.take n)) := by
  induction n with
  | zero => rfl
  | succ n ih =>
    have hget : img.getD n 0 = img[n] := List.getD_eq_getElem ..
    have hlow : leValue (img.take n) < 2 ^ (8 * n) := by
      have hlen : (img.take n).length = n := List.length_take_of_le (by omega)
      simpa [two_pow_eight_mul, hlen] using leValue_lt (img.take n)
    have htake : leValue (img.take (n + 1)) = leValue (img.take n) + 2 ^ (8 * n) * img[n].toNat := by
      rw [List.take_succ_eq_append_getElem hn, leValue_concat, List.length_take_of_le (by omega), two_pow_eight_mul]
    rw [scanHighestBit, hget, highestBitBelow_eight, htake]
    by_cases hzero : img[n].toNat = 0
    · simpa [hzero] using ih (by omega)
    · rw [highestBit_of_ne_zero hzero, highestBit_add_two_pow_mul hlow hzero]

theorem scanHighestBit_imageOf (w : Width) (r : Wide) :
    scanHighestBit (imageOf w r) w.bytes = highestSetBit w r := by
  rw [scanHighestBit_eq (by simp), List.take_of_length_le (by simp), leValue_imageOf, highestSetBit_eq_highestBit]

/-- Settles O55: the scan from the top gives the order of the images' values, of which inverting bit 7 of the top bytes
makes the signed values plus one constant; and the highest set bit stands in the highest nonzero byte. -/
theorem byteScansGiveTheOrdersAndTheHighestBit : Obligations.ByteScansGiveTheOrdersAndTheHighestBit := by
  intro s t u v w sg ra rb hs ht hu hv
  obtain rfl := eq_effectOf_of_exec hs ht
  obtain rfl := eq_effectOf_of_exec hs hu
  obtain rfl := eq_effectOf_of_exec hs hv
  refine ⟨?_, ?_, ?_⟩
  · rw [x_effectOf_cmp, limbCompareUnsigned_imageOf]
    rfl
  · rw [x_effectOf_cmp, limbCompareSigned_imageOf]
    rfl
  · rw [x_effectOf_hsb, scanHighestBit_imageOf]

end Sys2Proof.Machine

/-! PROOFS. HSB, BSET, BCLR and BTST (46_bit_utilities.md): the index HSB writes (R130), the one bit that BSET and BCLR
write and that BTST reads (R131 to R133), the fault of an index at or above the width (R134), and the laws of R135. -/

namespace Sys2Proof.Machine

/-! ## What a command with a bit index does in a running block -/

/-- A command whose effect is to raise IndexOutOfRange records cause 2 and its word (46_bit_utilities.md R134). -/
theorem exec_of_effectOf_eq_raise {i : Instr} {cmd : Word} {s : State} (hs : s.fault = 0)
    (h : effectOf i s = raise .indexOutOfRange cmd s) : ∃ t, exec i s = .next t ∧ FaultRecorded s t 2 cmd :=
  ⟨_, exec_running i hs, h ▸ faultRecorded_raise ..⟩

section Effects
variable {w : Width} {n : Imm16} (hn : n.toNat < w.bits) (sg : Signedness) (rd ra : RegNum) (s : State)
include hn

theorem effectOf_bset : effectOf (.bset w sg rd n) s = s.setReg rd (withBitSet (s.reg rd) n.toNat) := if_pos hn

theorem effectOf_bclr : effectOf (.bclr w sg rd n) s = s.setReg rd (withBitClear (s.reg rd) n.toNat) := if_pos hn

theorem effectOf_btst : effectOf (.btst w sg ra n) s = s.setX (bitCode (bitOf (s.reg ra) n.toNat)) := if_pos hn

end Effects

/-! ## BSET, BCLR and BTST -/

theorem byteOf_withBitSet_of_ne {i k : Nat} (hi : i < 1024) (hk : k ≠ i / 8) (r : Wide) :
    byteOf (withBitSet r i) k = byteOf r k := by
  rw [withBitSet, byteOf_setByte _ _ _ _ (by omega), if_neg hk]

theorem byteOf_withBitClear_of_ne {i k : Nat} (hi : i < 1024) (hk : k ≠ i / 8) (r : Wide) :
    byteOf (withBitClear r i) k = byteOf r k := by
  rw [withBitClear, byteOf_setByte _ _ _ _ (by omega), if_neg hk]

/-- Settles O36: below the width the command writes the register with that bit set, and otherwise it faults. -/
theorem bsetSetsOneBit : Obligations.BsetSetsOneBit := by
  intro s w sg rd i hs
  refine ⟨fun hi => ⟨_, exec_running _ hs, ?_⟩, fun hi => exec_of_effectOf_eq_raise hs (if_neg (Nat.not_lt.2 hi))⟩
  rw [effectOf_bset hi, State.reg_setReg, if_pos rfl]
  exact ⟨fun j hj => getLsbD_withBitSet _ _ _ hj,
    fun k hk => byteOf_withBitSet_of_ne (hi.trans_le w.bits_le) hk _, onlyRegister_setReg ..⟩

/-- Settles O37: below the width the command writes the register with that bit cleared, and otherwise it faults. -/
theorem bclrClearsOneBit : Obligations.BclrClearsOneBit := by
  intro s w sg rd i hs
  refine ⟨fun hi => ⟨_, exec_running _ hs, ?_⟩, fun hi => exec_of_effectOf_eq_raise hs (if_neg (Nat.not_lt.2 hi))⟩
  rw [effectOf_bclr hi, State.reg_setReg, if_pos rfl]
  exact ⟨fun j hj => getLsbD_withBitClear _ _ _ hj,
    fun k hk => byteOf_withBitClear_of_ne (hi.trans_le w.bits_le) hk _, onlyRegister_setReg ..⟩

/-- Settles O38: below the width the command writes X alone, and otherwise it faults. -/
theorem btstReadsOneBit : Obligations.BtstReadsOneBit := by
  intro s w sg ra i hs
  refine ⟨fun hi => ⟨_, exec_running _ hs, ?_⟩, fun hi => exec_of_effectOf_eq_raise hs (if_neg (Nat.not_lt.2 hi))⟩
  rw [effectOf_btst hi]
  exact ⟨rfl, onlyScalar_setX ..⟩

/-! ## HSB (R130) -/

/-- The highest set bit of a number is the one index whose bit is set and above which no bit is. -/
theorem highestBit_eq_some_iff {v i : Nat} :
    highestBit v = some i ↔ v.testBit i = true ∧ ∀ j, i < j → v.testBit j = false := by
  constructor
  · intro h
    have hv : v ≠ 0 := by rintro rfl; cases h
    obtain rfl : v.log2 = i := by simpa [highestBit_of_ne_zero hv] using h
    have hlt : v < 2 ^ (v.log2 + 1) := Nat.lt_log2_self
    exact ⟨Nat.testBit_log2 hv, fun j hj =>
      Nat.testBit_lt_two_pow (hlt.trans_le (Nat.pow_le_pow_right (by decide) hj))⟩
  · rintro ⟨hset, hclear⟩
    have hv : v ≠ 0 := by rintro rfl; simp at hset
    rw [highestBit_of_ne_zero hv, Option.some_inj, Nat.log2_eq_iff hv]
    exact ⟨Nat.ge_two_pow_of_testBit hset, Nat.lt_pow_two_of_testBit _ hclear⟩

/-- The highest set bit below the width, read from the register's own bits. -/
theorem highestSetBit_eq_some_iff {w : Width} {r : Wide} {i : Nat} : highestSetBit w r = some i ↔
    i < w.bits ∧ r.getLsbD i = true ∧ ∀ j, i < j → j < w.bits → r.getLsbD j = false := by
  rw [highestSetBit_eq_highestBit, highestBit_eq_some_iff]
  simp [testBit_unsignedOf, and_assoc]

/-- An index below the width is read back from X; the sentinel is none of them. -/
theorem toNat_indexCode_highestSetBit_eq_iff {w : Width} {r : Wide} {i : Nat} (hi : i < w.bits) :
    (indexCode (highestSetBit w r)).toNat = i ↔ highestSetBit w r = some i := by
  have hw := w.bits_le
  cases h : highestSetBit w r with
  | none =>
    have hne : 65535 ≠ i := by omega
    simpa [indexCode] using hne
  | some j =>
    obtain ⟨hj, -, -⟩ := highestSetBit_eq_some_iff.1 h
    simp [indexCode, Nat.mod_eq_of_lt (show j < 65536 by omega)]

/-- Settles O35: a nonzero value has a highest set bit, whose index X holds. -/
theorem hsbWritesTheHighestSetIndex : Obligations.HsbWritesTheHighestSetIndex := by
  intro s w sg ra hs
  refine ⟨_, exec_running _ hs, onlyScalar_setX .., fun h => ?_, fun h => ?_⟩
  · have hnone : highestSetBit w (s.reg ra) = none := if_pos h
    rw [x_effectOf_hsb, hnone, indexCode]
  · obtain ⟨i, hsome⟩ : ∃ i, highestSetBit w (s.reg ra) = some i := ⟨_, if_neg h⟩
    have hspec := highestSetBit_eq_some_iff.1 hsome
    rwa [x_effectOf_hsb, (toNat_indexCode_highestSetBit_eq_iff hspec.1).2 hsome]

/-! ## The laws of R135 -/

theorem signBit_iff_highestSetBit (w : Width) (r : Wide) :
    signBit w r = true ↔ highestSetBit w r = some (w.bits - 1) := by
  have hw := w.bits_pos
  rw [highestSetBit_eq_some_iff, signBit]
  exact ⟨fun h => ⟨by omega, h, fun j _ _ => by omega⟩, fun ⟨_, h, _⟩ => h⟩

section Laws
variable {s t u v : State} {w : Width} {sg : Signedness} {a : RegNum} {i j : Imm16}

theorem x_eq_of_exec_btst (hs : s.fault = 0) (hj : j.toNat < w.bits) (h : exec (.btst w sg a j) s = .next u) :
    u.x = bitCode ((s.reg a).getLsbD j.toNat) := by
  rw [eq_effectOf_of_exec hs h, x_effectOf_btst hj]

theorem x_eq_of_exec_btst_setReg (hs : s.fault = 0) (hj : j.toNat < w.bits) {r : Wide}
    (h : exec (.btst w sg a j) (s.setReg a r) = .next u) : u.x = bitCode (r.getLsbD j.toNat) := by
  rw [x_eq_of_exec_btst (s := s.setReg a r) hs hj h, State.reg_setReg, if_pos rfl]

/-- After BSET of `i`, bit `i` reads 1 and any other bit as before (46_bit_utilities.md R135 (b)). -/
theorem x_btst_after_bset (hs : s.fault = 0) (hi : i.toNat < w.bits) (hj : j.toNat < w.bits)
    (ht : exec (.bset w sg a i) s = .next t) (hu : exec (.btst w sg a j) t = .next u)
    (hv : exec (.btst w sg a j) s = .next v) : u.x = if j = i then 1 else v.x := by
  obtain rfl := eq_effectOf_of_exec hs ht
  rw [effectOf_bset hi] at hu
  rw [x_eq_of_exec_btst_setReg hs hj hu, x_eq_of_exec_btst hs hj hv,
    getLsbD_withBitSet _ _ _ (hj.trans_le w.bits_le)]
  by_cases h : j = i
  · simp [h, bitCode]
  · simp [h, BitVec.toNat_inj]

/-- After BCLR of `i`, bit `i` reads 0 and any other bit as before (46_bit_utilities.md R135 (b)). -/
theorem x_btst_after_bclr (hs : s.fault = 0) (hi : i.toNat < w.bits) (hj : j.toNat < w.bits)
    (ht : exec (.bclr w sg a i) s = .next t) (hu : exec (.btst w sg a j) t = .next u)
    (hv : exec (.btst w sg a j) s = .next v) : u.x = if j = i then 0 else v.x := by
  obtain rfl := eq_effectOf_of_exec hs ht
  rw [effectOf_bclr hi] at hu
  rw [x_eq_of_exec_btst_setReg hs hj hu, x_eq_of_exec_btst hs hj hv,
    getLsbD_withBitClear _ _ _ (hj.trans_le w.bits_le)]
  by_cases h : j = i
  · simp [h, bitCode]
  · simp [h, BitVec.toNat_inj]

theorem highestSetBit_withBitSet_zero {k : Nat} (hk : k < w.bits) : highestSetBit w (withBitSet 0 k) = some k := by
  have hw := w.bits_le
  rw [highestSetBit_eq_some_iff]
  refine ⟨hk, ?_, fun j hkj hj => ?_⟩
  · rw [getLsbD_withBitSet _ _ _ (by omega), decide_eq_true rfl, Bool.true_or]
  · rw [getLsbD_withBitSet _ _ _ (by omega), decide_eq_false hkj.ne', Bool.false_or]
    exact BitVec.getLsbD_zero

/-- HSB of a register in which BSET set the only bit gives its index (46_bit_utilities.md R135 (c)). -/
theorem x_hsb_after_bset (hs : s.fault = 0) (hi : i.toNat < w.bits) (ha : s.reg a = 0)
    (ht : exec (.bset w sg a i) s = .next t) (hu : exec (.hsb w sg a) t = .next u) : u.x = i := by
  obtain rfl := eq_effectOf_of_exec hs ht
  rw [effectOf_bset hi, ha] at hu
  rw [eq_effectOf_of_exec (s := s.setReg a _) hs hu, x_effectOf_hsb, State.reg_setReg, if_pos rfl,
    ← BitVec.toNat_inj, toNat_indexCode_highestSetBit_eq_iff hi]
  exact highestSetBit_withBitSet_zero hi

/-- HSB gives the sign bit's index exactly for a negative value (46_bit_utilities.md R135 (d)). -/
theorem x_hsb_eq_sign_index_iff (hs : s.fault = 0) (ht : exec (.hsb w sg a) s = .next t) :
    t.x.toNat = w.bits - 1 ↔ s.value .signed w a < 0 := by
  rw [eq_effectOf_of_exec hs ht, x_effectOf_hsb,
    toNat_indexCode_highestSetBit_eq_iff (Nat.sub_one_lt w.bits_pos.ne'), ← signBit_iff_highestSetBit,
    State.value_eq, valueOf_lt_zero_iff]
  simp

end Laws

/-- Settles O40: the bits BSET and BCLR write decide what BTST and HSB read. -/
theorem bitCommandsAgreeWithEachOther : Obligations.BitCommandsAgreeWithEachOther :=
  ⟨fun _ _ _ _ _ _ _ _ _ hs hi hj =>
    ⟨x_btst_after_bset hs hi hj, x_btst_after_bclr hs hi hj, x_hsb_after_bset hs hi⟩,
    fun _ _ _ _ _ => x_hsb_eq_sign_index_iff⟩

end Sys2Proof.Machine

/-! PROOFS. The hexadecimal text form (47_text_formatting.md): the text of an image is the shortest numeral of its value
(R141), a text is parsed to its numeral or rejected (R142, R144), and the two are inverse at one width (R146). -/

namespace Sys2Proof.Machine

/-! ## Digits and numerals -/

theorem digitValue_lt {c : Char} {d : Nat} (h : digitValue c = some d) : d < 16 := by
  unfold digitValue at h
  split_ifs at h <;> cases h <;> omega

theorem digitValue_hexDigit (upper : Bool) {d : Nat} (h : d < 16) : digitValue (hexDigit upper d) = some d := by
  have hall : ∀ u : Bool, ∀ d : Fin 16, digitValue (hexDigit u d) = some d.val := by decide
  exact hall upper ⟨d, h⟩

theorem hexDigit_ne_zero (upper : Bool) {d : Nat} (h : d < 16) (h0 : d ≠ 0) : hexDigit upper d ≠ '0' := by
  intro hc
  have hd := digitValue_hexDigit upper h
  rw [hc] at hd
  exact h0 (Option.some.inj hd).symm

theorem hexNumeral_concat (text : List Char) (c : Char) :
    hexNumeral (text ++ [c]) = 16 * hexNumeral text + (digitValue c).getD 0 := by
  simp [hexNumeral]

theorem hexNumeral_append (xs ys : List Char) :
    hexNumeral (xs ++ ys) = 16 ^ ys.length * hexNumeral xs + hexNumeral ys := by
  induction ys using List.reverseRecOn with
  | nil => simp [hexNumeral]
  | append_singleton ys c ih =>
    rw [← List.append_assoc, hexNumeral_concat, hexNumeral_concat, ih, List.length_append, List.length_singleton]
    ring

/-- A `0` on the left pads a text without changing its numeral (47_text_formatting.md R142). -/
theorem hexNumeral_zero_cons (text : List Char) : hexNumeral ('0' :: text) = hexNumeral text := by
  rw [← List.singleton_append, hexNumeral_append, show hexNumeral ['0'] = 0 from rfl, mul_zero, zero_add]

/-- The numeral of a text that begins with two digits. -/
theorem hexNumeral_cons_cons {hi lo : Char} {h l : Nat} (hhi : digitValue hi = some h) (hlo : digitValue lo = some l)
    (rest : List Char) : hexNumeral (hi :: lo :: rest) = 16 ^ rest.length * (16 * h + l) + hexNumeral rest := by
  rw [show hi :: lo :: rest = [hi, lo] ++ rest from rfl, hexNumeral_append]
  simp [hexNumeral, hhi, hlo]

/-- Every character of the text is a hex digit (47_text_formatting.md R144). -/
def AllHexDigits (text : List Char) : Prop := ∀ c ∈ text, (digitValue c).isSome = true

@[simp] theorem allHexDigits_nil : AllHexDigits [] := nofun

@[simp] theorem allHexDigits_cons {c : Char} {text : List Char} :
    AllHexDigits (c :: text) ↔ (digitValue c).isSome = true ∧ AllHexDigits text := List.forall_mem_cons

@[simp] theorem allHexDigits_append {xs ys : List Char} :
    AllHexDigits (xs ++ ys) ↔ AllHexDigits xs ∧ AllHexDigits ys := List.forall_mem_append

/-! ## Writing bytes as digits (R141) -/

section Written
variable (upper : Bool) (b : Byte) (bs : List Byte)

theorem toNat_div_sixteen_lt : b.toNat / 16 < 16 := by
  have := b.isLt
  omega

theorem allHexDigits_hexPair : AllHexDigits (hexPair upper b) := by
  simp [hexPair, digitValue_hexDigit upper (toNat_div_sixteen_lt b), digitValue_hexDigit upper (Nat.mod_lt b.toNat _)]

theorem hexNumeral_hexPair : hexNumeral (hexPair upper b) = b.toNat := by
  rw [hexPair, hexNumeral_cons_cons (digitValue_hexDigit upper (toNat_div_sixteen_lt b))
    (digitValue_hexDigit upper (Nat.mod_lt b.toNat (by decide)))]
  simp [hexNumeral, Nat.div_add_mod]

theorem allHexDigits_hexLeading : AllHexDigits (hexLeading upper b) := by
  unfold hexLeading
  split
  · simp [digitValue_hexDigit upper (show b.toNat < 16 by omega)]
  · exact allHexDigits_hexPair upper b

theorem hexNumeral_hexLeading : hexNumeral (hexLeading upper b) = b.toNat := by
  unfold hexLeading
  split
  · simp [hexNumeral, digitValue_hexDigit upper (show b.toNat < 16 by omega)]
  · exact hexNumeral_hexPair upper b

theorem head?_hexLeading_append {b : Byte} (hb : b ≠ 0) (text : List Char) :
    (hexLeading upper b ++ text).head? ≠ some '0' := by
  have hpos : b.toNat ≠ 0 := fun h => hb (BitVec.eq_of_toNat_eq h)
  unfold hexLeading
  split
  · simpa using hexDigit_ne_zero upper (show b.toNat < 16 by omega) hpos
  · simpa [hexPair] using hexDigit_ne_zero upper (toNat_div_sixteen_lt b) (by omega)

theorem allHexDigits_flatMap_hexPair : AllHexDigits (bs.flatMap (hexPair upper)) := by
  intro c hc
  obtain ⟨b, -, hb⟩ := List.mem_flatMap.1 hc
  exact allHexDigits_hexPair upper b c hb

/-- Two digits a byte after a text carry the bytes below the text's numeral, the last one least significant. -/
theorem hexNumeral_append_flatMap_hexPair (text : List Char) :
    hexNumeral (text ++ bs.flatMap (hexPair upper)) = 256 ^ bs.length * hexNumeral text + leValue bs.reverse := by
  induction bs using List.reverseRecOn with
  | nil => simp [leValue]
  | append_singleton bs b ih =>
    rw [List.flatMap_append, ← List.append_assoc, hexNumeral_append, ih, List.flatMap_singleton, hexNumeral_hexPair,
      List.reverse_concat, leValue, List.length_append, List.length_singleton,
      show (hexPair upper b).length = 2 from rfl]
    ring

end Written

/-- Zero bytes at the most significant end add nothing to a value. -/
theorem leValue_reverse_dropWhile_zero (l : List Byte) :
    leValue (l.dropWhile (· == 0)).reverse = leValue l.reverse := by
  induction l with
  | nil => rfl
  | cons b l ih =>
    rw [List.dropWhile_cons]
    split
    · next hb =>
      rw [ih, List.reverse_cons, leValue_concat, eq_of_beq hb]
      simp
    · rfl

/-- Everything `toHexString` can give: the digit 0, or the digits from the highest nonzero byte down (R141). -/
theorem toHexString_cases (p : Config.HostParams) (img : List Byte) :
    (leValue img = 0 ∧ toHexString p img = ['0']) ∨
    ∃ (b : Byte) (bs : List Byte), b ≠ 0 ∧ leValue img = 256 ^ bs.length * b.toNat + leValue bs.reverse ∧
      toHexString p img = hexLeading p.hexUpper b ++ bs.flatMap (hexPair p.hexUpper) := by
  have hvalue := leValue_reverse_dropWhile_zero img.reverse
  rw [List.reverse_reverse] at hvalue
  have hhead := List.head?_dropWhile_not (· == (0 : Byte)) img.reverse
  unfold toHexString
  cases hd : img.reverse.dropWhile (· == 0) with
  | nil =>
    rw [hd] at hvalue
    exact .inl ⟨hvalue.symm, rfl⟩
  | cons b bs =>
    rw [hd] at hvalue hhead
    rw [List.reverse_cons, leValue_concat, List.length_reverse] at hvalue
    exact .inr ⟨b, bs, by simpa using hhead, by omega, rfl⟩

/-- Settles O58: either the value and the text are zero, or the text begins with the digits of a nonzero byte. -/
theorem hexTextIsTheShortestNumeral : Obligations.HexTextIsTheShortestNumeral := by
  intro p img
  obtain ⟨hzero, htext⟩ | ⟨b, bs, hb, hvalue, htext⟩ := toHexString_cases p img
  · rw [hzero, htext]
    exact ⟨rfl, by simp [digitValue], fun _ => rfl, fun h => absurd rfl h⟩
  · have hne : leValue img ≠ 0 := by
      have hpos : 0 < b.toNat := Nat.pos_of_ne_zero fun h => hb (BitVec.eq_of_toNat_eq h)
      rw [hvalue]
      positivity
    rw [htext, hexNumeral_append_flatMap_hexPair, hexNumeral_hexLeading]
    exact ⟨hvalue.symm, allHexDigits_append.2 ⟨allHexDigits_hexLeading _ b, allHexDigits_flatMap_hexPair _ bs⟩,
      fun h => absurd h hne, fun _ => head?_hexLeading_append _ hb _⟩

/-! ## Reading digits as bytes (R142, R144) -/

/-- Two characters give a byte when both are digits and the rest is read. -/
theorem parsePairs_cons_cons_eq_some {hi lo : Char} {rest : List Char} {bytes : List Byte} :
    parsePairs (hi :: lo :: rest) = some bytes ↔
      ∃ h l bs, digitValue hi = some h ∧ digitValue lo = some l ∧ parsePairs rest = some bs ∧
        bytes = BitVec.ofNat 8 (16 * h + l) :: bs := by
  rw [parsePairs]
  constructor
  · intro h
    split at h
    · next hhi hlo hrest => exact ⟨_, _, _, hhi, hlo, hrest, (Option.some.inj h).symm⟩
    · cases h
  · rintro ⟨h, l, bs, hhi, hlo, hrest, rfl⟩
    rw [hhi, hlo, hrest]

/-- A text of digits of even length is read, and its bytes have its numeral's value, the first one most significant. -/
theorem exists_parsePairs {text : List Char} (heven : text.length % 2 = 0) (hdigits : AllHexDigits text) :
    ∃ bs, parsePairs text = some bs ∧ 2 * bs.length = text.length ∧ leValue bs.reverse = hexNumeral text := by
  induction text using List.twoStepInduction with
  | nil => exact ⟨[], rfl, rfl, rfl⟩
  | singleton c => simp at heven
  | cons_cons hi lo rest ih _ =>
    simp only [allHexDigits_cons, Option.isSome_iff_exists] at hdigits
    obtain ⟨⟨h, hhi⟩, ⟨l, hlo⟩, hrest⟩ := hdigits
    obtain ⟨bs, hparse, hlen, hvalue⟩ := ih (by simp only [List.length_cons] at heven; omega) hrest
    refine ⟨_, parsePairs_cons_cons_eq_some.2 ⟨h, l, bs, hhi, hlo, hparse, rfl⟩, by simp; omega, ?_⟩
    have hbyte : (BitVec.ofNat 8 (16 * h + l)).toNat = 16 * h + l := by
      have := digitValue_lt hhi
      have := digitValue_lt hlo
      rw [BitVec.toNat_ofNat]
      omega
    rw [List.reverse_cons, leValue_concat, List.length_reverse, hbyte, hvalue, hexNumeral_cons_cons hhi hlo, ← hlen,
      pow_mul]
    ring

/-- What is read as bytes is all digits. -/
theorem allHexDigits_of_parsePairs {text : List Char} {bytes : List Byte} (h : parsePairs text = some bytes) :
    AllHexDigits text := by
  induction text using List.twoStepInduction generalizing bytes with
  | nil => exact allHexDigits_nil
  | singleton c => cases h
  | cons_cons hi lo rest ih _ =>
    obtain ⟨_, _, _, hhi, hlo, hrest, -⟩ := parsePairs_cons_cons_eq_some.1 h
    simp [hhi, hlo, ih hrest]

/-- The text `fromHex` reads in pairs: padded with a `0` on the left when its length is odd (R142). -/
def paddedText (text : List Char) : List Char := if text.length % 2 = 1 then '0' :: text else text

theorem length_paddedText (text : List Char) : (paddedText text).length % 2 = 0 := by
  unfold paddedText
  split
  · rw [List.length_cons]
    omega
  · omega

@[simp] theorem hexNumeral_paddedText (text : List Char) : hexNumeral (paddedText text) = hexNumeral text := by
  unfold paddedText
  split
  · exact hexNumeral_zero_cons text
  · rfl

@[simp] theorem allHexDigits_paddedText (text : List Char) : AllHexDigits (paddedText text) ↔ AllHexDigits text := by
  unfold paddedText
  split
  · simp [digitValue]
  · rfl

theorem fromHex_of_parsePairs {text : List Char} {bs : List Byte} (h : parsePairs (paddedText text) = some bs)
    (w : Width) : fromHex w text = .ok (fromBytes w bs.reverse) := by
  simp only [paddedText] at h
  simp only [fromHex, h]

theorem fromHex_of_parsePairs_eq_none {text : List Char} (h : parsePairs (paddedText text) = none) (w : Width) :
    fromHex w text = .error .invalidHexDigit := by
  simp only [paddedText] at h
  simp only [fromHex, h]

/-- Settles O59: the padded text is read exactly when the text is all digits, and `fromBytes` reduces its numeral. -/
theorem hexTextIsParsedOrRejected : Obligations.HexTextIsParsedOrRejected := by
  refine fun w text => ⟨fun hdigits => ?_, fun hbad => ?_⟩
  · have hpadded := (allHexDigits_paddedText text).2 hdigits
    obtain ⟨bs, hparse, -, hvalue⟩ := exists_parsePairs (length_paddedText text) hpadded
    refine ⟨_, fromHex_of_parsePairs hparse w, length_fromBytes .., ?_⟩
    rw [leValue_fromBytes, hvalue, hexNumeral_paddedText]
  · cases hparse : parsePairs (paddedText text) with
    | none => exact fromHex_of_parsePairs_eq_none hparse w
    | some bs => exact absurd ((allHexDigits_paddedText text).1 (allHexDigits_of_parsePairs hparse)) hbad

/-! ## The round trip (R146) -/

/-- Settles O60: the text is the image's numeral, which parsing gives back below `2^W`, and the value of an image of N
bytes is below `2^W` and fixes the image. -/
theorem hexTextRoundTrip : Obligations.HexTextRoundTrip := by
  intro p w img hlen
  obtain ⟨hvalue, hdigits, -, -⟩ := hexTextIsTheShortestNumeral p img
  obtain ⟨img', hparse, hlen', hvalue'⟩ := (hexTextIsParsedOrRejected w (toHexString p img)).1 hdigits
  have hlt : leValue img < 2 ^ w.bits := by
    rw [two_pow_bits_eq_pow_bytes, ← hlen]
    exact leValue_lt img
  rw [hvalue, Nat.mod_eq_of_lt hlt] at hvalue'
  rw [hparse, leValue_inj (hlen'.trans hlen.symm) hvalue']

end Sys2Proof.Machine

/-! PROOFS. NOP (48_system.md), the successor of every command and the reset event (70_reset_and_hazards.md), the faults
(60_exceptions.md): which words record which cause (R160 to R162, R170), that a fault is precise (R166) and what ends one
(R167 to R169), and the worked encodings (30_encoding.md section 7). -/

namespace Sys2Proof.Machine

/-! ## The cause a command records in a running block (R160) -/

theorem FaultCause.code_cases (c : FaultCause) : c.code = 1 ∨ c.code = 2 ∨ c.code = 3 := by cases c <;> decide

theorem FaultCause.code_ne_zero (c : FaultCause) : c.code ≠ 0 := by cases c <;> decide

theorem FaultCause.code_inj {c d : FaultCause} : c.code = d.code ↔ c = d := by
  cases c <;> cases d <;> decide

/-- `t` is `s` with the cause recorded and nothing else changed, or keeps FAULT when there is none. -/
def RecordsCause (o : Option FaultCause) (cmd : Word) (s t : State) : Prop :=
  match o with
  | some c => t = raise c cmd s
  | none => t.fault = s.fault

/-- DivisionByZero, when the divisor's low W bits are zero (R161, 43_divide.md R103). -/
def divisorCause (w : Width) (divisor : Wide) : Option FaultCause :=
  if unsignedOf w divisor = 0 then some .divisionByZero else none

/-- IndexOutOfRange, when the index is not below W (R162, 46_bit_utilities.md R134). -/
def indexCause (w : Width) (n : Imm16) : Option FaultCause :=
  if n.toNat < w.bits then none else some .indexOutOfRange

/-- The cause an instruction records in a running block, if any (R160 to R162). -/
def causeOf (s : State) : Instr → Option FaultCause
  | .mulf w _ _ _ _ => if fullMultiplyWidthOk w then none else some .illegalCommand
  | .divmod w _ _ _ _ rb => divisorCause w (s.reg rb)
  | .mod w _ _ _ rb => divisorCause w (s.reg rb)
  | .div w _ _ _ rb => divisorCause w (s.reg rb)
  | .bset w _ _ n => indexCause w n
  | .bclr w _ _ n => indexCause w n
  | .btst w _ _ n => indexCause w n
  | _ => none

/-- The cause a command word records in a running block, if any: a word that does not decode is illegal. -/
def wordCause (s : State) (w : Word) : Option FaultCause :=
  match decode w with
  | .ok i => causeOf s i
  | .error _ => some .illegalCommand

theorem divisorCause_eq_some_iff {w : Width} {r : Wide} {c : FaultCause} :
    divisorCause w r = some c ↔ c = .divisionByZero ∧ unsignedOf w r = 0 := by
  unfold divisorCause
  split
  · simp [*, eq_comm]
  · simp [*]

theorem indexCause_eq_some_iff {w : Width} {n : Imm16} {c : FaultCause} :
    indexCause w n = some c ↔ c = .indexOutOfRange ∧ w.bits ≤ n.toNat := by
  unfold indexCause
  split
  · next h => simp [Nat.not_le.2 h]
  · next h => simp [Nat.not_lt.1 h, eq_comm]

section RecordsCause
variable {s t : State}

theorem recordsCause_dividing {k : Int → Int → State → State} (hk : ∀ a b, (k a b s).fault = s.fault) (cmd : Word)
    (w : Width) (sg : Signedness) (ra rb : RegNum) :
    RecordsCause (divisorCause w (s.reg rb)) cmd s (dividing cmd w sg ra rb k s) := by
  unfold divisorCause
  obtain ⟨h0, h⟩ | ⟨h0, h⟩ := dividing_cases cmd w sg ra rb k s
  · rw [if_pos h0]
    exact h
  · rw [if_neg h0, h]
    exact hk _ _

theorem recordsCause_indexing {k : Nat → State → State} (hk : ∀ j, (k j s).fault = s.fault) (cmd : Word) (w : Width)
    (n : Imm16) : RecordsCause (indexCause w n) cmd s (indexing cmd w n k s) := by
  unfold indexCause
  obtain ⟨hn, h⟩ | ⟨hn, h⟩ := indexing_cases cmd w n k s
  · rw [if_neg (Nat.not_lt.2 hn)]
    exact h
  · rw [if_pos hn, h]
    exact hk _

theorem recordsCause_effectOf (i : Instr) (s : State) : RecordsCause (causeOf s i) (encode i) s (effectOf i s) := by
  cases i
  case nop | neg | add | sub | mull | shl | shr | cmp | hsb | mov | zero => exact (rfl : State.fault _ = _)
  case mulf =>
    simp only [causeOf, effectOf]
    split <;> rfl
  case divmod | div => exact recordsCause_dividing (by simp) ..
  case mod =>
    simp only [causeOf, effectOf]
    exact recordsCause_dividing (fun _ _ => rfl) ..
  case bset | bclr | btst =>
    simp only [causeOf, effectOf]
    exact recordsCause_indexing (fun _ => rfl) ..

/-- The word FINFO gets is the word issued, because a legal word is the word of its instruction. -/
theorem recordsCause_of_issue {w : Word} (hs : s.fault = 0) (h : issue w s = .next t) :
    RecordsCause (wordCause s w) w s t := by
  unfold wordCause
  cases hd : decode w with
  | ok i =>
    rw [issue_of_decode hd, exec_running i hs] at h
    cases h
    have hw := (everyLegalWordIsTheWordOfItsInstruction w i hd).1
    exact hw ▸ recordsCause_effectOf i s
  | error r =>
    rw [issue_illegal hd, command_running hs] at h
    exact (Host.Outcome.next.inj h).symm

variable {o : Option FaultCause} {cmd : Word} (hs : s.fault = 0) (h : RecordsCause o cmd s t)
include hs h

/-- In a running block FAULT tells the recorded cause. -/
theorem RecordsCause.fault_eq_code_iff (c : FaultCause) : t.fault = c.code ↔ o = some c := by
  cases o with
  | none =>
    have ht : t.fault = 0 := h.trans hs
    exact iff_of_false (ht ▸ c.code_ne_zero.symm) nofun
  | some d =>
    cases h
    simp [FaultCause.code_inj, eq_comm]

theorem RecordsCause.faultRecorded (ht : t.fault ≠ 0) : FaultRecorded s t t.fault cmd := by
  cases o with
  | none => exact absurd (h.trans hs) ht
  | some c =>
    cases h
    exact faultRecorded_raise c cmd s

theorem RecordsCause.fault_cases : t.fault = 0 ∨ t.fault = 1 ∨ t.fault = 2 ∨ t.fault = 3 := by
  cases o with
  | none => exact .inl (h.trans hs)
  | some c =>
    cases h
    exact .inr c.code_cases

end RecordsCause

/-! ## Which words record which cause -/

section WordCause
variable (s : State) (w : Word)

/-- MULF at width 1024 is the one instruction that records IllegalCommand, and no word decodes to it. -/
theorem wordCause_eq_illegalCommand_iff : wordCause s w = some .illegalCommand ↔ isIllegal w = true := by
  unfold wordCause isIllegal
  cases hd : decode w with
  | error r => simp
  | ok i =>
    have hwf := (everyLegalWordIsTheWordOfItsInstruction w i hd).2.1
    cases i
    case mulf =>
      have hok : fullMultiplyWidthOk _ = true := hwf
      simp [causeOf, hok]
    case divmod | mod | div => simp [causeOf, divisorCause_eq_some_iff]
    case bset | bclr | btst => simp [causeOf, indexCause_eq_some_iff]
    all_goals simp [causeOf]

theorem wordCause_eq_indexOutOfRange_iff : wordCause s w = some .indexOutOfRange ↔ isIndexOutOfRange w = true := by
  unfold wordCause isIndexOutOfRange bitIndexOf
  cases hd : decode w with
  | error r => simp
  | ok i =>
    cases i
    case divmod | mod | div => simp [causeOf, divisorCause_eq_some_iff]
    case bset | bclr | btst => simp [causeOf, indexCause_eq_some_iff]
    all_goals simp [causeOf]

/-- A legal word is that of a core command, so DIV needs no row of its own. -/
theorem wordCause_eq_divisionByZero_iff : wordCause s w = some .divisionByZero ↔ ∃ wd sg rd re ra rb,
    (decode w = .ok (.divmod wd sg rd re ra rb) ∨ decode w = .ok (.mod wd sg rd ra rb)) ∧ s.unsigned wd rb = 0 := by
  unfold wordCause
  cases hd : decode w with
  | error r => simp
  | ok i =>
    have hcore := (everyLegalWordIsTheWordOfItsInstruction w i hd).2.2
    cases i
    case div => cases hcore
    case divmod | mod => simp [causeOf, divisorCause_eq_some_iff]
    case bset | bclr | btst => simp [causeOf, indexCause_eq_some_iff]
    all_goals simp [causeOf]

end WordCause

/-- Settles O45: FAULT is the code of the word's cause, and each cause has its words. -/
theorem faultCausesAreThoseOfTheTable : Obligations.FaultCausesAreThoseOfTheTable := by
  intro w s t hs h
  have hcause := recordsCause_of_issue hs ((deliver_cmdWrite w s).symm.trans h)
  exact ⟨(hcause.fault_eq_code_iff hs .illegalCommand).trans (wordCause_eq_illegalCommand_iff s w),
    (hcause.fault_eq_code_iff hs .indexOutOfRange).trans (wordCause_eq_indexOutOfRange_iff s w),
    (hcause.fault_eq_code_iff hs .divisionByZero).trans (wordCause_eq_divisionByZero_iff s w),
    hcause.fault_cases hs⟩

/-- Settles O46: whatever cause is recorded, `raise` records it with the word issued. -/
theorem faultsArePrecise : Obligations.FaultsArePrecise := by
  intro w s t hs h
  have hcause := recordsCause_of_issue hs ((deliver_cmdWrite w s).symm.trans h)
  exact hcause.faultRecorded hs

/-! ## What a faulted block does (R167 to R169, 70_reset_and_hazards.md R180) -/

/-- An event delivered to a faulted block keeps the fault record, or acknowledges DivisionByZero, or is the reset. -/
theorem deliver_faulted_cases {e : Event} {s t : State} (hs : s.fault ≠ 0) (h : deliver e s = .next t) :
    (t.fault = s.fault ∧ t.finfo = s.finfo) ∨
    (∃ v, e = .hostWrite 0x408 4 v ∧ s.fault = 1 ∧ t = { s with fault := 0, finfo := 0 }) ∨
    (e = .reset ∧ t = resetBlock s) := by
  obtain ⟨_, _, _, -, -, rfl⟩ | ⟨_, _, _, _, -, -, -, rfl⟩ | ⟨w, -, hw⟩ | ⟨_, _, -, -, rfl⟩ | ⟨v, he, rfl⟩ | hreset :=
    deliver_cases h
  · exact .inl ⟨rfl, rfl⟩
  · exact .inl ⟨rfl, rfl⟩
  · rw [issue_faulted w hs] at hw
    cases hw
    exact .inl ⟨rfl, rfl⟩
  · exact .inl ⟨rfl, rfl⟩
  · by_cases h1 : s.fault = 1
    · exact .inr (.inl ⟨v, he, h1, if_pos h1⟩)
    · rw [show acknowledge s = s from if_neg h1]
      exact .inl ⟨rfl, rfl⟩
  · exact .inr (.inr hreset)

/-- Settles O47: the step is idle or delivers the head of the script to a faulted block. -/
theorem faultedBlockDiscardsCommandsAndKeepsItsFault : Obligations.FaultedBlockDiscardsCommandsAndKeepsItsFault := by
  refine ⟨fun s hs => ⟨fun i => exec_faulted i hs, fun w => (deliver_cmdWrite w s).trans (issue_faulted w hs)⟩,
    fun s t hs h => ?_⟩
  obtain ⟨-, rfl⟩ | ⟨e, rest, hp, h⟩ := step_cases h
  · exact .inl ⟨rfl, rfl⟩
  · obtain hkept | ⟨v, rfl, h1, rfl⟩ | ⟨rfl, rfl⟩ := deliver_faulted_cases (s := { s with pending := rest }) hs h
    · exact .inl hkept
    · exact .inr (.inl ⟨v, rest, hp, h1, rfl, rfl, fun _ => rfl, rfl⟩)
    · exact .inr (.inr ⟨rest, hp, rfl, rfl⟩)

/-- Settles O2: the reset block is the reset state but for the host's part, and the acknowledge ends cause 1 alone. -/
theorem resetEventClearsTheBlockAndAloneEndsFatalFaults :
    Obligations.ResetEventClearsTheBlockAndAloneEndsFatalFaults := by
  refine ⟨fun s => ⟨resetBlock s, rfl, fun n k => by simp [byteOf], rfl, rfl, rfl, rfl, rfl⟩,
    fun s t e h hfatal hchange => ?_⟩
  have hs : s.fault ≠ 0 ∧ s.fault ≠ 1 := by
    obtain h | h := hfatal <;> rw [h] <;> decide
  obtain ⟨hkept, -⟩ | ⟨-, -, h1, -⟩ | ⟨he, -⟩ := deliver_faulted_cases hs.1 h
  · exact absurd hkept hchange
  · exact absurd h1 hs.2
  · exact he

/-! ## NOP, successors, worked encodings -/

theorem exec_nop (s : State) : exec .nop s = .next s := by
  by_cases hs : s.fault = 0
  · exact exec_running .nop hs
  · exact exec_faulted .nop hs

/-- The first test of the decoder: an operation field of 0 is NOP's, whose word has no other bit. -/
theorem decode_eq_nopWithOtherBits {w : Word} (hop : field w 27 5 = 0) (hw : w ≠ 0) :
    decode w = .error .nopWithOtherBits := by
  rw [decode, hop]
  exact if_neg hw

/-- Settles O15: NOP's effect is none, and the decoder tests its word first. -/
theorem nopChangesNothing : Obligations.NopChangesNothing :=
  ⟨exec_nop, rfl, fun w hop => decode_eq_nopWithOtherBits (by rw [field_eq, hop]; rfl)⟩

/-- Settles O44: every meaning is a `command`, which answers a next state. -/
theorem everyCommandHasASuccessor : Obligations.EveryCommandHasASuccessor := by
  refine ⟨fun i s => ⟨_, exec_eq_command i s⟩, fun w s => ?_⟩
  rw [deliver_cmdWrite]
  exact exists_next_issue w s

/-- Settles O9: the decoder runs on each word. -/
theorem workedEncodingsDecode : Obligations.WorkedEncodingsDecode :=
  ⟨rfl, rfl, rfl, rfl, rfl, rfl, rfl, rfl, rfl⟩

end Sys2Proof.Machine
